-- ==== Sys2Proof/Word.lean ====
section
/-!
DEFINITION. The word types of the core: spec/00_scope.md R8 (fixed parameters) and R17 (values).
-/

namespace Sys2Proof

/-- A register value, an address or an extended immediate: 64 bits, arithmetic modulo 2^64 (R8, R17). -/
abbrev Word := BitVec 64

/-- One byte of memory. -/
abbrev Byte := BitVec 8

/-- One fetched instruction word: 32 bits, always (R8, 30_encoding.md R100). -/
abbrev InstrWord := BitVec 32

/-- A register index, 0 to 31 (10_state.md R30). -/
abbrev Reg := Fin 32

end Sys2Proof
end

