-- ==== Sys2Proof/Config.lean ====
section
/-!
DEFINITION. What is fixed for the lifetime of a run, and the open values of the spec: the configuration interface
(spec/00_scope.md R9 to R11), the memory regions it supplies (20_memory.md R60), the trace events (45_diagnostics.md
R183 to R186) and the opaque constants that stand for functions the spec leaves to the configuration.
-/

namespace Sys2Proof

/-- What a router access is for (20_memory.md R71). -/
inductive AccessKind where
  | fetch
  | load
  | store
  deriving DecidableEq, Repr

/-- The reason of a `Trap` (60_exceptions.md R200). -/
inductive TrapReason where
  | busMiss (kind : AccessKind) (addr : Word)
  | unsupportedAccessWidth (sizeBits : Nat)
  deriving DecidableEq, Repr

/-- DiagnosticFlags: five independent booleans with no bit layout (10_state.md R42, decision D19). -/
structure DiagnosticFlags where
  decodeTrace : Bool
  errorTrace : Bool
  registerDump : Bool
  verbose : Bool
  useAbiNames : Bool
  deriving DecidableEq, Repr

/-- The two parameters that select what a word decodes to (00_scope.md R10, decisions D2 and D3). -/
structure DispatchMode where
  /-- `LEGACY_OPCODE_ONLY`: dispatch on the opcode alone (30_encoding.md R109). -/
  legacyOpcodeOnly : Bool
  /-- `STUB_PLACEHOLDERS`: opcodes 0x37 and 0x36 are no-ops, not unknown (30_encoding.md R110). -/
  stubPlaceholders : Bool
  deriving DecidableEq, Repr

/-- The scalar part of the configuration, constant for a run (00_scope.md R9, R10; 10_state.md R43). -/
structure Settings where
  initialPc : Word
  flags : DiagnosticFlags
  sinkPresent : Bool
  dispatch : DispatchMode
  deriving DecidableEq, Repr

/-- The bytes a memory context holds, keyed by the offset within the region: a list in one canonical form
(`Memory.wf` of Machine/Ops.lean). -/
abbrev Memory := List Host.Cell

/-- A region's context (10_state.md R45): "for a memory region, its bytes; for a device, its registers".
A device is named by a number, which selects its two capability functions below (log entry 4). -/
inductive Context where
  | bytes (m : Memory)
  | device (id : Nat) (regs : List Word)
  deriving DecidableEq, Repr

/-- A MemoryRegion (20_memory.md R60). A capability that is missing is absent, not a function that fails: the two
booleans say which are there, and the context says which functions they are. -/
structure Region where
  base : Word
  length : Word
  canLoad : Bool
  canStore : Bool
  ctx : Context
  deriving DecidableEq, Repr

/-- What the configuration interface supplies once, before the first step (00_scope.md R9 to R11). -/
structure Config where
  settings : Settings
  regions : List Region
  deriving DecidableEq, Repr

/-- Why a configuration is refused at construction. -/
inductive ConfigError where
  /-- Raised by `construct`: the region of this index breaks 20_memory.md R61. Safe. -/
  | regionOverflows (index : Nat)
  /-- Raised by `construct`: the memory context of this region is not in the model's canonical form, a refusal of a
  way to write the context down and of no context (log entry 3). Safe. -/
  | contextNotCanonical (index : Nat)
  deriving DecidableEq, Repr

/-- The contents of an Error event (45_diagnostics.md R185). -/
inductive ErrorInfo where
  | unknown (pc : Word) (w : InstrWord)
  | fetchFault (pc : Word) (reason : TrapReason)
  deriving DecidableEq, Repr

/-- A trace event (45_diagnostics.md R183 to R186). Registers are carried by name, as R190 names them. -/
inductive TraceEvent where
  /-- R183: the raw opcode of the fetched word and the pc it was fetched from. -/
  | opcode (pc : Word) (op : BitVec 7)
  /-- R184: the mnemonic, the destination and then the source register names, and for ADDI the signed immediate. -/
  | disasm (mnemonic : String) (registers : List String) (imm : Option Int)
  /-- R185. -/
  | error (info : ErrorInfo)
  /-- R186: the 32 registers in order, each with its name. -/
  | regDump (registers : List (String × Word))
  deriving DecidableEq, Repr

/-- The byte-load capability of device `id` (20_memory.md R60: `load_r : Ctx_r -> u64 -> u8`), a parameter of the
configuration that the core constrains in no way (93_implementation_defined.md I10; log entry 4). -/
opaque Config.deviceLoad : (id : Nat) → (regs : List Word) → (offset : Word) → Byte

/-- The byte-store capability of device `id` (20_memory.md R60: `store_r : Ctx_r -> u64 -> u8 -> Ctx_r`), a parameter
of the configuration that the core constrains in no way (I10; log entry 4). -/
opaque Config.deviceStore : (id : Nat) → (regs : List Word) → (offset : Word) → (b : Byte) → List Word

/-- `TRACE_RENDER` (00_scope.md R10): the lines of text of one event, left open by the spec (45_diagnostics.md R191,
decision D13). -/
opaque Config.traceRender : TraceEvent → List String

end Sys2Proof
end

