-- ==== Sys2Proof/Syntax.lean ====
section
/-!
DEFINITION. The instructions: one constructor per row of spec/opcode_table.json.
-/

namespace Sys2Proof

/-- The instructions of spec/30_encoding.md R108 to R110. -/
inductive Instr where
  /-- `addi rd, rs1, imm` (41_integer_alu.md R160). `imm` is the immediate after `sext_64` (30_encoding.md R105, R111);
  `Instr.wf` says which values an encoding can hold. -/
  | addi (rd rs1 : Reg) (imm : Word)
  /-- `add rd, rs1, rs2` (41_integer_alu.md R163). -/
  | add (rd rs1 rs2 : Reg)
  /-- The placeholder with opcode 0x37 (41_integer_alu.md R166). `ignored` is bits 31..7 of its word, kept so that an
  instruction has one word; nothing reads them. -/
  | stub37 (ignored : BitVec 25)
  /-- The placeholder with opcode 0x36 (41_integer_alu.md R166). -/
  | stub36 (ignored : BitVec 25)
  deriving DecidableEq, Repr

end Sys2Proof
end

