-- ==== Sys2Proof/WellFormed.lean ====
section
/-!
DEFINITION. Which instructions have an encoding. Register indices and the stub's ignored bits are bounded by their
types; the one check left is the range of ADDI's immediate (spec/30_encoding.md R105, R116).
-/

namespace Sys2Proof

/-- The immediate of an I-type word, "a value in [-2048, 2047] read as signed" (30_encoding.md R105). -/
def immFits (imm : Word) : Bool := decide (-2048 ≤ imm.toInt ∧ imm.toInt ≤ 2047)

/-- The instruction has an encoding. -/
def Instr.wf : Instr → Bool
  | .addi _ _ imm => immFits imm
  | .add _ _ _ => true
  | .stub37 _ => true
  | .stub36 _ => true

end Sys2Proof
end

