-- ==== Sys2Proof/Decode.lean ====
section
/-!
DEFINITION. The decoder and the encoder: spec/30_encoding.md.
-/

namespace Sys2Proof

/-! ### Fields (30_encoding.md R102, R105) -/

/-- `w[6:0]`. -/
def opcodeOf (w : InstrWord) : BitVec 7 := w.extractLsb' 0 7

/-- `w[11:7]`. -/
def rdOf (w : InstrWord) : Reg := (w.extractLsb' 7 5).toFin

/-- `w[14:12]`. -/
def funct3Of (w : InstrWord) : BitVec 3 := w.extractLsb' 12 3

/-- `w[19:15]`. -/
def rs1Of (w : InstrWord) : Reg := (w.extractLsb' 15 5).toFin

/-- `w[24:20]`. -/
def rs2Of (w : InstrWord) : Reg := (w.extractLsb' 20 5).toFin

/-- `w[31:25]`. -/
def funct7Of (w : InstrWord) : BitVec 7 := w.extractLsb' 25 7

/-- `sext_64(w[31:20])` (R105). -/
def immOf (w : InstrWord) : Word := (w.extractLsb' 20 12).signExtend 64

/-- `w[31:7]`, which a stub ignores (R110). -/
def ignoredOf (w : InstrWord) : BitVec 25 := w.extractLsb' 7 25

/-! ### Selection -/

/-- The word is ADDI: opcode 0x13 and, unless `LEGACY_OPCODE_ONLY`, funct3 000 (R108, R109; log entry 5). -/
def selectsAddi (m : DispatchMode) (w : InstrWord) : Bool :=
  opcodeOf w == 0x13#7 && (m.legacyOpcodeOnly || funct3Of w == 0b000#3)

/-- The word is ADD: opcode 0x33 and, unless `LEGACY_OPCODE_ONLY`, funct3 000 and funct7 0000000 (R108, R109;
log entry 5). -/
def selectsAdd (m : DispatchMode) (w : InstrWord) : Bool :=
  opcodeOf w == 0x33#7 && (m.legacyOpcodeOnly || (funct3Of w == 0b000#3 && funct7Of w == 0b0000000#7))

/-- The word is the stub of opcode `op`, only under `STUB_PLACEHOLDERS` (R110). -/
def selectsStub (m : DispatchMode) (op : BitVec 7) (w : InstrWord) : Bool :=
  m.stubPlaceholders && opcodeOf w == op

/-- What a word decodes to: an instruction, or the one class UNKNOWN (R111, R112). -/
inductive Decoded where
  | instr (i : Instr)
  | unknown
  deriving DecidableEq, Repr

/-- `Decode(w)`, total on all words (R111). -/
def decode (m : DispatchMode) (w : InstrWord) : Decoded :=
  if selectsAddi m w then .instr (.addi (rdOf w) (rs1Of w) (immOf w))
  else if selectsAdd m w then .instr (.add (rdOf w) (rs1Of w) (rs2Of w))
  else if selectsStub m 0x37#7 w then .instr (.stub37 (ignoredOf w))
  else if selectsStub m 0x36#7 w then .instr (.stub36 (ignoredOf w))
  else .unknown

/-! ### Bytes -/

/-- The word whose byte at the lowest address is `b0` (R100, little-endian). -/
def wordOfBytes (b0 b1 b2 b3 : Byte) : InstrWord := b3 ++ b2 ++ b1 ++ b0

/-- The bytes of a word, lowest address first (R100). -/
def bytesOfWord (w : InstrWord) : List Byte :=
  [w.extractLsb' 0 8, w.extractLsb' 8 8, w.extractLsb' 16 8, w.extractLsb' 24 8]

/-- Why bytes are no instruction. -/
inductive DecodeReject where
  /-- Fewer than the four bytes every instruction has (R100). -/
  | truncated (have_ : Nat)
  /-- The word is UNKNOWN (R112). -/
  | unknownInstruction (w : InstrWord)
  deriving DecidableEq, Repr

/-- The instruction at the head of a list of bytes, with the bytes after it: total, rejecting by name. -/
def decodeBytes (m : DispatchMode) : List Byte → Except DecodeReject (Instr × List Byte)
  | b0 :: b1 :: b2 :: b3 :: rest =>
    match decode m (wordOfBytes b0 b1 b2 b3) with
    | .instr i => .ok (i, rest)
    | .unknown => .error (.unknownInstruction (wordOfBytes b0 b1 b2 b3))
  | short => .error (.truncated short.length)

/-! ### Encoding -/

/-- A register index as the 5 bits of its field (R106). -/
def regBits (r : Reg) : BitVec 5 := BitVec.ofFin r

/-- `imm & 0xFFF` (R116). -/
def imm12Of (imm : Word) : BitVec 12 := imm.setWidth 12

/-- The I-type layout (R104). -/
def encodeI (imm12 : BitVec 12) (rs1 : BitVec 5) (funct3 : BitVec 3) (rd : BitVec 5) (op : BitVec 7) : InstrWord :=
  imm12 ++ rs1 ++ funct3 ++ rd ++ op

/-- The R-type layout (R103). -/
def encodeR (funct7 : BitVec 7) (rs2 rs1 : BitVec 5) (funct3 : BitVec 3) (rd : BitVec 5) (op : BitVec 7) : InstrWord :=
  funct7 ++ rs2 ++ rs1 ++ funct3 ++ rd ++ op

/-- The word of a well-formed instruction (R116; the stubs from R110). -/
def encode : Instr → InstrWord
  | .addi rd rs1 imm => encodeI (imm12Of imm) (regBits rs1) 0b000#3 (regBits rd) 0x13#7
  | .add rd rs1 rs2 => encodeR 0b0000000#7 (regBits rs2) (regBits rs1) 0b000#3 (regBits rd) 0x33#7
  | .stub37 ignored => ignored ++ 0x37#7
  | .stub36 ignored => ignored ++ 0x36#7

/-! ### The rows of spec/opcode_table.json -/

/-- The row's "match" number. -/
def Instr.tableMatch : Instr → InstrWord
  | .addi _ _ _ => 0x00000013#32
  | .add _ _ _ => 0x00000033#32
  | .stub37 _ => 0x00000037#32
  | .stub36 _ => 0x00000036#32

/-- The row's "mask" number. -/
def Instr.tableMask : Instr → InstrWord
  | .addi _ _ _ => 0x0000707F#32
  | .add _ _ _ => 0xFE00707F#32
  | .stub37 _ => 0x0000007F#32
  | .stub36 _ => 0x0000007F#32

/-- The setting under which every row of the table is an instruction: its conditions ask strict dispatch for
`addi` and `add`, and `STUB_PLACEHOLDERS` for the stubs (log entry 6). -/
def tableMode : DispatchMode := { legacyOpcodeOnly := false, stubPlaceholders := true }

/-- The word a table row's bits stand for: bits at and above `nbits` are 0. -/
def tableWord (nbits w : Nat) : InstrWord := BitVec.ofNat 32 (w % 2 ^ nbits)

/-- What the decoder reads from a word of the opcode table laid out as the hardware stores it, under `tableMode`. -/
def decodeTableWord (nbits w : Nat) : Option Instr :=
  match decodeBytes tableMode (bytesOfWord (tableWord nbits w)) with
  | .ok (i, _) => some i
  | .error _ => none

end Sys2Proof
end

