-- ==== Sys2Proof/Machine/State.lean ====
section
/-!
DEFINITION. The state of one instance (spec/10_state.md R47), the outcomes of a step (60_exceptions.md R200) and the
state after reset (70_reset_and_hazards.md R240).
-/

namespace Sys2Proof.Machine

/-- StepOutcome (60_exceptions.md R200): what one step reports to the host. -/
inductive StepOutcome where
  /-- `Continue`. -/
  | continued
  /-- `UnknownInstruction`. -/
  | unknownInstruction
  /-- `Trap(reason)`. -/
  | trap (reason : TrapReason)
  deriving DecidableEq, Repr

/-- Why a step is no `Continue`: the spec's own two reported conditions, which leave the state as it was
(60_exceptions.md R206; log entry 8). -/
inductive Fault where
  /-- Raised by `step` for a fetched word that decodes to UNKNOWN (40_step_engine.md R141). Safe: the spec reports it. -/
  | unknownInstruction
  /-- Raised by `step` for a fetch that misses (40_step_engine.md R137), and by the router's own contract for a data
  access that misses or has a bad width (20_memory.md R69, R70). Safe: the spec reports it. -/
  | trap (reason : TrapReason)
  deriving DecidableEq, Repr

/-- Why the model gives no meaning. -/
inductive Refusal where
  /-- Raised by `exec` for an instruction without a meaning yet; no arm raises it. Safe: the model stops. -/
  | notModelled (mnemonic : String)
  deriving DecidableEq, Repr

/-- The complete state of an instance (10_state.md R47): `x1` to `x31`, `pc`, the regions with their contexts, and the
constant configuration. `x0` has no storage (10_state.md R33). -/
structure State where
  /-- `x1` to `x31`, in that order (10_state.md R30, R33). -/
  x : Vector Word 31
  /-- The program counter (10_state.md R36). -/
  pc : Word
  /-- The router: the regions in registration order, each with its context (20_memory.md R60, R63). -/
  regions : List Region
  /-- The rest of the configuration (10_state.md R42, R43; 00_scope.md R10). -/
  settings : Settings
  deriving DecidableEq, Repr

/-- What one `step()` gives back: its outcome, the state after it and the events it emitted, in order. -/
structure StepReport where
  outcome : StepOutcome
  state : State
  events : List TraceEvent
  deriving DecidableEq, Repr

/-- The outcome a fault stands for (60_exceptions.md R200). -/
def Fault.outcome : Fault → StepOutcome
  | .unknownInstruction => .unknownInstruction
  | .trap reason => .trap reason

/-- The settings of `State.reset`: the defaults of 00_scope.md R9 and R10, and where those give none (the flags, the
sink) everything off (DESIGN CHOICE, log entry 2). -/
def resetSettings : Settings :=
  { initialPc := 0
    flags :=
      { decodeTrace := false, errorTrace := false, registerDump := false, verbose := false, useAbiNames := false }
    sinkPresent := false
    dispatch := { legacyOpcodeOnly := false, stubPlaceholders := false } }

/-- The state after construction (70_reset_and_hazards.md R240) from the default configuration: registers 0, `pc` at
`INITIAL_PC`, no region (the spec gives `REGIONS` no default: DESIGN CHOICE, log entry 1). -/
def State.reset : State :=
  { x := Vector.replicate 31 0
    pc := resetSettings.initialPc
    regions := []
    settings := resetSettings }

end Sys2Proof.Machine
end

