-- ==== Sys2Proof/Machine/Ops.lean ====
section
/-!
DEFINITION. The named operations over registers, contexts and the memory bus router, fetching, and what a reported
condition does: spec/10_state.md, 20_memory.md, 40_step_engine.md §1 and 60_exceptions.md §3.
-/

namespace Sys2Proof

/-! ### The bytes of a memory context -/

/-- What an offset that the context does not list reads as (DESIGN CHOICE, log entry 3). -/
def Memory.unlisted : Byte := 0

/-- The canonical form: offsets strictly rising, and no byte listed that an unlisted offset reads as anyway. -/
def Memory.wf (m : Memory) : Bool :=
  decide (m.Pairwise (fun c d => c.1 < d.1)) && m.all (fun c => c.2 != Memory.unlisted)

/-- The byte at an offset. -/
def Memory.read : Memory → Nat → Byte
  | [], _ => Memory.unlisted
  | (k, b) :: m, o => if k = o then b else Memory.read m o

/-- Put a cell in front, unless it holds what an unlisted offset reads as. -/
def Memory.cons (o : Nat) (b : Byte) (m : Memory) : Memory :=
  if b = Memory.unlisted then m else (o, b) :: m

/-- The bytes with the one at an offset replaced, in canonical form again. -/
def Memory.write : Memory → Nat → Byte → Memory
  | [], o, b => Memory.cons o b []
  | (k, v) :: m, o, b =>
    if o < k then Memory.cons o b ((k, v) :: m)
    else if o = k then Memory.cons o b m
    else (k, v) :: Memory.write m o b

/-- The bytes with a list of them placed from an offset on. -/
def Memory.writeList (m : Memory) (o : Nat) : List Byte → Memory
  | [] => m
  | b :: bs => Memory.writeList (Memory.write m o b) (o + 1) bs

/-- The context that holds an image from offset 0 on (70_reset_and_hazards.md R242). -/
def Memory.ofBytes (bs : List Byte) : Memory := Memory.writeList [] 0 bs

/-! ### Contexts and capabilities (20_memory.md R60) -/

/-- A call of the byte-load capability. It gives a byte and no new context (20_memory.md R67). -/
def Context.load : Context → Word → Byte
  | .bytes m, o => m.read o.toNat
  | .device id regs, o => Config.deviceLoad id regs o

/-- A call of the byte-store capability: the new context. -/
def Context.store : Context → Word → Byte → Context
  | .bytes m, o, b => .bytes (m.write o.toNat b)
  | .device id regs, o, b => .device id (Config.deviceStore id regs o b)

/-- Two contexts a region may have in turn: both bytes, or both registers of the same device. -/
def Context.sameKind : Context → Context → Bool
  | .bytes _, .bytes _ => true
  | .device i _, .device j _ => i == j
  | .bytes _, .device _ _ => false
  | .device _ _, .bytes _ => false

/-- The context is in canonical form for a region of this length: bytes only at offsets inside it. -/
def Context.wf : Context → Word → Bool
  | .bytes m, length => m.wf && m.all (fun c => decide (c.1 < length.toNat))
  | .device _ _, _ => true

/-- The two capabilities a region may have (20_memory.md R60, R64). -/
inductive Capability where
  | load
  | store
  deriving DecidableEq, Repr

/-- The region has the capability. -/
def Region.has (r : Region) : Capability → Bool
  | .load => r.canLoad
  | .store => r.canStore

/-- `base <= a < base + length` (20_memory.md R60). -/
def Region.covers (r : Region) (a : Word) : Bool :=
  decide (r.base.toNat ≤ a.toNat ∧ a.toNat < r.base.toNat + r.length.toNat)

/-- The region matches in a resolution (20_memory.md R64). -/
def Region.serves (r : Region) (cap : Capability) (a : Word) : Bool := r.covers a && r.has cap

/-- The address within the region: the offset from its base (20_memory.md R64, decision D22). -/
def Region.offset (r : Region) (a : Word) : Word := a - r.base

/-- 20_memory.md R61: `base + length <= 2^64 - 1`. -/
def Region.fits (r : Region) : Bool := decide (r.base.toNat + r.length.toNat ≤ 2 ^ 64 - 1)

/-- The region is well-formed (R61) and its context is in canonical form. -/
def Region.wf (r : Region) : Bool := r.fits && r.ctx.wf r.length

/-- A load of one byte at an address of the region. -/
def Region.loadAt (r : Region) (a : Word) : Byte := r.ctx.load (r.offset a)

/-- The region after a store of one byte at an address of it: only the context changes (20_memory.md R63). -/
def Region.storeAt (r : Region) (a : Word) (b : Byte) : Region := { r with ctx := r.ctx.store (r.offset a) b }

end Sys2Proof

namespace Sys2Proof.Machine

/-! ### Registers and pc (10_state.md R31, R32, R36) -/

/-- `x[r]`: 0 for index 0 (R31). -/
def State.readReg (s : State) (r : Reg) : Word :=
  if r = 0 then 0 else s.x[r.val - 1]'(by omega)

/-- `x[r] <- v`: discarded for index 0 (R32). -/
def State.writeReg (s : State) (r : Reg) (v : Word) : State :=
  if r = 0 then s else { s with x := s.x.set (r.val - 1) v (by omega) }

/-- `pc <- target`. -/
def State.setPc (s : State) (target : Word) : State := { s with pc := target }

/-- `pc <- pc + 4`, modulo 2^64 (40_step_engine.md R147). -/
def State.advancePc (s : State) : State := s.setPc (s.pc + 4)

/-- The state with other contexts in its router. -/
def State.setRegions (s : State) (rs : List Region) : State := { s with regions := rs }

/-! ### Resolution (20_memory.md R64, R65) -/

/-- A resolved byte: the index of the region and the region as it stands when the access begins. -/
structure Hit where
  index : Nat
  region : Region
  deriving DecidableEq, Repr

/-- The scan of `Resolve(a, cap)` from a region that has index `i`. -/
def resolveFrom (cap : Capability) (a : Word) : Nat → List Region → Option Hit
  | _, [] => none
  | i, r :: rs => if r.serves cap a then some ⟨i, r⟩ else resolveFrom cap a (i + 1) rs

/-- `Resolve(a, cap)`: the first region in registration order that covers the byte and has the capability. -/
def resolve (rs : List Region) (cap : Capability) (a : Word) : Option Hit := resolveFrom cap a 0 rs

/-- The addresses of the `n` bytes of an access at `a`: `(a + i) mod 2^64` (R65). -/
def byteAddrs (a : Word) (n : Nat) : List Word := (List.range n).map (fun i => a + BitVec.ofNat 64 i)

/-- Every byte of an access resolved, or the lowest-index miss (R66, R68, R70). -/
def resolveAll (rs : List Region) (cap : Capability) (kind : AccessKind) :
    List Word → Except TrapReason (List (Word × Hit))
  | [] => .ok []
  | a :: as =>
    match resolve rs cap a with
    | none => .error (.busMiss kind a)
    | some h =>
      match resolveAll rs cap kind as with
      | .ok hs => .ok ((a, h) :: hs)
      | .error e => .error e

/-! ### Bytes and values (20_memory.md R66, R68) -/

/-- `value = Σ byte[i] << (8*i)`. -/
def composeLE : List Byte → Word
  | [] => 0
  | b :: bs => b.setWidth 64 + (composeLE bs <<< 8)

/-- `(value >> (8*i)) & 0xFF`. -/
def byteOf (value : Word) (i : Nat) : Byte := (value >>> (8 * i)).setWidth 8

/-- The low `n` bytes of a value, byte 0 first. -/
def bytesLE (value : Word) (n : Nat) : List Byte := (List.range n).map (byteOf value)

/-- The sizes the router moves (R69, R75). -/
def supportedWidth (sizeBits : Nat) : Bool :=
  sizeBits == 8 || sizeBits == 16 || sizeBits == 32 || sizeBits == 64

/-! ### The router (20_memory.md R66, R68) -/

/-- `RouterLoad(kind, addr, sizeBits)` (R66). -/
def routerLoad (rs : List Region) (kind : AccessKind) (addr : Word) (sizeBits : Nat) : Except TrapReason Word :=
  if supportedWidth sizeBits then
    match resolveAll rs .load kind (byteAddrs addr (sizeBits / 8)) with
    | .error reason => .error reason
    | .ok hits => .ok (composeLE (hits.map (fun p => p.2.region.loadAt p.1)))
  else .error (.unsupportedAccessWidth sizeBits)

/-- The writes of a store whose bytes are all resolved, byte 0 first, each seeing the context the one before left
(R68). -/
def storeBytes : List Region → List ((Word × Hit) × Byte) → List Region
  | rs, [] => rs
  | rs, ((a, h), b) :: rest => storeBytes (rs.modify h.index (fun r => r.storeAt a b)) rest

/-- `RouterStore(addr, value, sizeBits)` (R68): the regions with their new contexts. -/
def routerStore (rs : List Region) (addr value : Word) (sizeBits : Nat) : Except TrapReason (List Region) :=
  if supportedWidth sizeBits then
    match resolveAll rs .store .store (byteAddrs addr (sizeBits / 8)) with
    | .error reason => .error reason
    | .ok hits => .ok (storeBytes rs (hits.zip (bytesLE value (sizeBits / 8))))
  else .error (.unsupportedAccessWidth sizeBits)

/-- `MemRead(addr, n)`: the router load of `n` bytes (00_scope.md R20). -/
def memRead (s : State) (addr : Word) (n : Nat) : Except TrapReason Word := routerLoad s.regions .load addr (8 * n)

/-- `MemWrite(addr, n, v)`: the router store of the low `n` bytes of `v` (00_scope.md R20). -/
def memWrite (s : State) (addr : Word) (n : Nat) (v : Word) : Except TrapReason State :=
  match routerStore s.regions addr v (8 * n) with
  | .ok rs => .ok (s.setRegions rs)
  | .error reason => .error reason

/-- `Fetch(pc)`: the low 32 bits of `RouterLoad(Fetch, pc, 32)` (40_step_engine.md R131). -/
def fetch (s : State) : Except TrapReason InstrWord :=
  match routerLoad s.regions .fetch s.pc 32 with
  | .ok v => .ok (v.setWidth 32)
  | .error reason => .error reason

/-! ### Zero enforcement (40_step_engine.md R132) -/

/-- "register 0 is reset to 0 before decode": `x0` has no storage here, so this is the identity (10_state.md R33). -/
def State.enforceZero (s : State) : State := s.writeReg 0 0

/-! ### Reported conditions and the ends of a step (60_exceptions.md R206, R208; 40_step_engine.md R147) -/

/-- Taking a condition, the one shared operation: "What a non-Continue outcome does to state: nothing" (R206). It saves
nothing, changes no mode and no pc; the outcome and the events are the whole of the report. -/
def takeCondition (f : Fault) (events : List TraceEvent) (s : State) : StepReport :=
  { outcome := f.outcome, state := s, events := events }

/-- The return from a condition: there is no return instruction, and the host resumes by stepping the state the report
left (R208). -/
def resume (report : StepReport) : State := report.state

/-- The `Continue` path of a step: after the instruction, `pc <- pc + 4` as the last state change (R146, R147). -/
def completeStep : Host.Outcome State Fault Refusal → Host.Outcome State Fault Refusal
  | .next t => .next t.advancePc
  | .fault f => .fault f
  | .refused r => .refused r

/-! ### Placing a word where the next fetch reads it -/

/-- A load-only region of four bytes at `pc` that holds the word. -/
def wordRegion (pc : Word) (w : InstrWord) : Region :=
  { base := pc, length := 4, canLoad := true, canStore := false, ctx := .bytes (Memory.ofBytes (bytesOfWord w)) }

/-- The word has one of the two placeholder opcodes (30_encoding.md R110). -/
def isPlaceholder (w : InstrWord) : Bool := opcodeOf w == 0x37#7 || opcodeOf w == 0x36#7

/-- The settings with `STUB_PLACEHOLDERS` on when `w` is a placeholder, which is no instruction otherwise. -/
def settingsFor (w : InstrWord) (st : Settings) : Settings :=
  { st with
    dispatch := { st.dispatch with stubPlaceholders := st.dispatch.stubPlaceholders || isPlaceholder w } }

/-- The state whose next fetch reads `w`: the word's region is registered first, so that it shadows any other at those
addresses (log entries 6 and 7). -/
def placeWord (w : InstrWord) (s : State) : State :=
  { s with regions := wordRegion s.pc w :: s.regions, settings := settingsFor w s.settings }

end Sys2Proof.Machine
end

