-- ==== Sys2Proof/Machine/Operands.lean ====
section
/-!
DEFINITION. The two operand forms of the instruction set (spec/30_encoding.md R105, R106): a register, read directly
with no offset, bank or renaming, and an immediate that the decoder has already sign-extended.
-/

namespace Sys2Proof.Machine

/-- A source operand. -/
inductive Operand where
  | reg (r : Reg)
  | imm (v : Word)
  deriving DecidableEq, Repr

/-- The value of a source operand. -/
def Operand.value (s : State) : Operand → Word
  | .reg r => s.readReg r
  | .imm v => v

/-- `x[rd] <- (a + b) mod 2^64`: both sources are read before the write (41_integer_alu.md R168), the sum wraps and
records no carry, overflow or sign (R162). -/
def addInto (rd : Reg) (a b : Operand) (s : State) : State := s.writeReg rd (a.value s + b.value s)

end Sys2Proof.Machine
end

