-- ==== Sys2Proof/Machine/Alu.lean ====
section
/-!
DEFINITION. The integer ALU instructions: spec/41_integer_alu.md §1 and §2. Like the rules there, a meaning states the
register effect only; the step around it fetches, decodes and advances `pc` (40_step_engine.md R130).
-/

namespace Sys2Proof.Machine

/-- `Exec_ADDI(rd, rs1, imm)` (R160). -/
def execAddi (rd rs1 : Reg) (imm : Word) (s : State) : Host.Outcome State Fault Refusal :=
  .next (addInto rd (.reg rs1) (.imm imm) s)

/-- `Exec_ADD(rd, rs1, rs2)` (R163). -/
def execAdd (rd rs1 rs2 : Reg) (s : State) : Host.Outcome State Fault Refusal :=
  .next (addInto rd (.reg rs1) (.reg rs2) s)

end Sys2Proof.Machine
end

