-- ==== Sys2Proof/Machine/Stub.lean ====
section
/-!
DEFINITION. The placeholder stubs: spec/41_integer_alu.md §3. "no register read, no register write, no router access";
the step then advances `pc` by 4 and continues (R166).
-/

namespace Sys2Proof.Machine

/-- `Exec_STUB(0x37)` (R166): not LUI, it writes nothing. -/
def execStub37 (_ignored : BitVec 25) (s : State) : Host.Outcome State Fault Refusal := .next s

/-- `Exec_STUB(0x36)` (R166). -/
def execStub36 (_ignored : BitVec 25) (s : State) : Host.Outcome State Fault Refusal := .next s

end Sys2Proof.Machine
end

