-- ==== Sys2Proof/Machine/Dispatch.lean ====
section
/-!
DEFINITION. Dispatch: one arm per instruction (spec/40_step_engine.md R135).
-/

namespace Sys2Proof.Machine

def exec (i : Instr) (s : State) : Host.Outcome State Fault Refusal :=
  match i with
  | .addi rd rs1 imm => Sys2Proof.Machine.execAddi rd rs1 imm s
  | .add rd rs1 rs2 => Sys2Proof.Machine.execAdd rd rs1 rs2 s
  | .stub37 ignored => Sys2Proof.Machine.execStub37 ignored s
  | .stub36 ignored => Sys2Proof.Machine.execStub36 ignored s

end Sys2Proof.Machine
end

