-- ==== Sys2Proof/Machine/Step.lean ====
section
/-!
DEFINITION. One step (spec/40_step_engine.md R130): fetch, decode, dispatch, pc advance. The events it emits stand in
Report.lean, since they never change the state or the outcome (45_diagnostics.md R180).
-/

namespace Sys2Proof.Machine

/-- One `step()` (R130, R138): a fetch failure is `Trap(reason)` and an UNKNOWN word `UnknownInstruction`, both with the
state as it was; otherwise the instruction runs and `pc` advances by 4. -/
def step (s : State) : Host.Outcome State Fault Refusal :=
  match fetch s with
  | .error reason => .fault (.trap reason)
  | .ok w =>
    match decode s.settings.dispatch w with
    | .unknown => .fault .unknownInstruction
    | .instr i => completeStep (exec i s.enforceZero)

/-- The state with the instruction of these bits stored where `step` fetches its next instruction (log entries 6
and 7). -/
def State.withFetchWord (s : State) (nbits w : Nat) : State := placeWord (tableWord nbits w) s

end Sys2Proof.Machine
end

