-- ==== Sys2Proof/Machine/Flags.lean ====
section
/-!
DEFINITION. Flags. The core has no status flags, condition codes or predicate registers (spec/10_state.md R39), so no
instruction computes one. Its only flags are the DiagnosticFlags, and this file holds the gates they form
(45_diagnostics.md R181, R182).
-/

namespace Sys2Proof.Machine

/-- The gate of an event's category (R182). `verbose` and `useAbiNames` enable nothing alone. -/
def gate (f : DiagnosticFlags) : TraceEvent → Bool
  | .opcode _ _ => f.decodeTrace && f.verbose
  | .disasm _ _ _ => f.decodeTrace
  | .error _ => f.errorTrace
  | .regDump _ => f.registerDump

/-- `emit E`: the event goes to the sink if and only if the sink is present and the gate holds (R181). -/
def emit (st : Settings) (e : TraceEvent) : List TraceEvent :=
  if st.sinkPresent && gate st.flags e then [e] else []

end Sys2Proof.Machine
end

