-- ==== Sys2Proof/Machine/Trace.lean ====
section
/-!
DEFINITION. Register names and the contents of the trace events: spec/10_state.md R34 and 45_diagnostics.md R183 to
R186, R190. Constant data and functions of it (R193).
-/

namespace Sys2Proof.Machine

/-- The ABI names in index order (10_state.md R34; all but `zero` and `a0` are the spec's general knowledge). -/
def abiNames : Vector String 32 :=
  #v["zero", "ra", "sp", "gp", "tp", "t0", "t1", "t2", "s0", "s1", "a0", "a1", "a2", "a3", "a4", "a5",
    "a6", "a7", "s2", "s3", "s4", "s5", "s6", "s7", "s8", "s9", "s10", "s11", "t3", "t4", "t5", "t6"]

/-- The raw name: `x` followed by the index in decimal. -/
def rawName (r : Reg) : String := "x" ++ toString r.val

/-- A register's name in events (R190). -/
def regName (useAbiNames : Bool) (r : Reg) : String := if useAbiNames then abiNames[r] else rawName r

/-- The Opcode event of a fetched word (R183). -/
def opcodeEvent (s : State) (w : InstrWord) : TraceEvent := .opcode s.pc (opcodeOf w)

/-- The Disasm event of an instruction: none for a stub (R184, decision D31). -/
def disasmEvent (useAbiNames : Bool) : Instr → Option TraceEvent
  | .addi rd rs1 imm => some (.disasm "addi" [regName useAbiNames rd, regName useAbiNames rs1] (some imm.toInt))
  | .add rd rs1 rs2 =>
    some (.disasm "add" [regName useAbiNames rd, regName useAbiNames rs1, regName useAbiNames rs2] none)
  | .stub37 _ => none
  | .stub36 _ => none

/-- The RegDump event of a state: `x[0]` to `x[31]`, each with its name, without `pc` (R186). -/
def regDumpEvent (s : State) : TraceEvent :=
  .regDump ((List.finRange 32).map (fun r => (regName s.settings.flags.useAbiNames r, s.readReg r)))

/-- The events after an instruction that ran: Disasm, if it has one, and then the dump of the registers it left
(R136, R187). -/
def completionEvents (i : Instr) (t : State) : List TraceEvent :=
  ((disasmEvent t.settings.flags.useAbiNames i).toList ++ [regDumpEvent t]).flatMap (emit t.settings)

/-- The lines the sink is handed for a list of events: one event may render to several (R189, R191). -/
def sinkLines (events : List TraceEvent) : List String := events.flatMap Config.traceRender

end Sys2Proof.Machine
end

