-- ==== Sys2Proof/Machine/Asm.lean ====
section
/-!
DEFINITION. Assembler syntax and pseudo-instructions: spec/30_encoding.md R117, R118. Nothing in the machine reads it.
-/

namespace Sys2Proof.Machine

/-- A statement of the assembler: the two instructions, and the only three pseudo-instructions it admits (R118). -/
inductive AsmStmt where
  | addi (rd rs1 : Reg) (imm : Int)
  | add (rd rs1 rs2 : Reg)
  | nop
  | mv (rd rs : Reg)
  | li (rd : Reg) (imm : Int)
  deriving DecidableEq, Repr

/-- ADDI with an immediate in `[-2048, 2047]`; "an assembler refuses a value outside that range rather than truncating
it" (R117, decision D33). -/
def assembleAddi (rd rs1 : Reg) (imm : Int) : Option Instr :=
  if -2048 ≤ imm ∧ imm ≤ 2047 then some (.addi rd rs1 (BitVec.ofInt 64 imm)) else none

/-- The instruction a statement stands for (R117, R118). -/
def assemble : AsmStmt → Option Instr
  | .addi rd rs1 imm => assembleAddi rd rs1 imm
  | .add rd rs1 rs2 => some (.add rd rs1 rs2)
  | .nop => assembleAddi 0 0 0
  | .mv rd rs => assembleAddi rd rs 0
  | .li rd imm => assembleAddi rd 0 imm

/-- The register of a raw or ABI name (10_state.md R34). -/
def regOfName (name : String) : Option Reg :=
  (List.finRange 32).find? (fun r => name == regName false r || name == regName true r)

/-- The value of a non-empty list of decimal digits, continuing from `acc`. -/
def digitsValue (acc : Nat) : List Char → Option Nat
  | [] => some acc
  | c :: cs => if c.isDigit then digitsValue (10 * acc + (c.toNat - '0'.toNat)) cs else none

/-- A signed decimal integer (log entry 14). -/
def intOfText : List Char → Option Int
  | [] => none
  | ['-'] => none
  | '-' :: cs => (digitsValue 0 cs).map (fun n => -(n : Int))
  | cs => (digitsValue 0 cs).map (fun n => (n : Int))

/-- Split at every occurrence of a character. -/
def splitAtChar (sep : Char) : List Char → List (List Char)
  | [] => [[]]
  | c :: cs =>
    if c = sep then [] :: splitAtChar sep cs
    else
      match splitAtChar sep cs with
      | [] => [[c]]
      | part :: parts => (c :: part) :: parts

/-- Without the spaces at both ends. -/
def trimSpaces (cs : List Char) : List Char :=
  ((cs.dropWhile (· == ' ')).reverse.dropWhile (· == ' ')).reverse

/-- The mnemonic and the operand texts of a line: operands separated by commas (R117). -/
def splitLine (line : List Char) : String × List String :=
  let body := trimSpaces line
  let mnemonic := body.takeWhile (· != ' ')
  let rest := trimSpaces (body.dropWhile (· != ' '))
  (String.ofList mnemonic,
    if rest.isEmpty then [] else (splitAtChar ',' rest).map (fun part => String.ofList (trimSpaces part)))

/-- The statement a line of text writes: mnemonics in lower case, destination first (R117). -/
def parseLine (line : String) : Option AsmStmt :=
  match splitLine line.toList with
  | ("addi", [rd, rs1, imm]) =>
    match regOfName rd, regOfName rs1, intOfText imm.toList with
    | some rd, some rs1, some imm => some (.addi rd rs1 imm)
    | _, _, _ => none
  | ("add", [rd, rs1, rs2]) =>
    match regOfName rd, regOfName rs1, regOfName rs2 with
    | some rd, some rs1, some rs2 => some (.add rd rs1 rs2)
    | _, _, _ => none
  | ("nop", []) => some .nop
  | ("mv", [rd, rs]) =>
    match regOfName rd, regOfName rs with
    | some rd, some rs => some (.mv rd rs)
    | _, _ => none
  | ("li", [rd, imm]) =>
    match regOfName rd, intOfText imm.toList with
    | some rd, some imm => some (.li rd imm)
    | _, _ => none
  | _ => none

/-- The instruction a line of text assembles to. -/
def assembleLine (line : String) : Option Instr :=
  match parseLine line with
  | some stmt => assemble stmt
  | none => none

/-- The syntax of an instruction, registers by raw or ABI name (R117); a stub has none. -/
def asmText (useAbiNames : Bool) : Instr → Option String
  | .addi rd rs1 imm =>
    some ("addi " ++ regName useAbiNames rd ++ ", " ++ regName useAbiNames rs1 ++ ", " ++ toString imm.toInt)
  | .add rd rs1 rs2 =>
    some ("add " ++ regName useAbiNames rd ++ ", " ++ regName useAbiNames rs1 ++ ", " ++ regName useAbiNames rs2)
  | .stub37 _ => none
  | .stub36 _ => none

end Sys2Proof.Machine
end

