-- ==== Sys2Proof/Machine/Construct.lean ====
section
/-!
DEFINITION. Reset is construction (spec/70_reset_and_hazards.md R240, R241, R243; 00_scope.md R11).
-/

namespace Sys2Proof.Machine

/-- The index of the first region, counted from `i`, that fails a check. -/
def firstBad (ok : Region → Bool) : Nat → List Region → Option Nat
  | _, [] => none
  | i, r :: rs => if ok r then firstBad ok (i + 1) rs else some i

/-- The state after construction, item by item (70_reset_and_hazards.md R240). -/
def initialState (c : Config) : State :=
  { x := Vector.replicate 31 0, pc := c.settings.initialPc, regions := c.regions, settings := c.settings }

/-- Construction: refuses a region list that breaks 20_memory.md R61 (00_scope.md R11, decision D8), and a memory
context that is not written in canonical form (log entry 3). -/
def construct (c : Config) : Except ConfigError State :=
  match firstBad Region.fits 0 c.regions with
  | some i => .error (.regionOverflows i)
  | none =>
    match firstBad Region.wf 0 c.regions with
    | some i => .error (.contextNotCanonical i)
    | none => .ok (initialState c)

end Sys2Proof.Machine
end

