-- ==== Sys2Proof/Machine/Report.lean ====
section
/-!
DEFINITION. What `step()` gives the host in full: the outcome with its number, the state after it and the trace events
(spec/40_step_engine.md R130; 60_exceptions.md R200, R201; 45_diagnostics.md R187).
-/

namespace Sys2Proof.Machine

/-- The events of one step, in order (45_diagnostics.md R187). -/
def stepEvents (s : State) : List TraceEvent :=
  match fetch s with
  | .error reason => emit s.settings (.error (.fetchFault s.pc reason))
  | .ok w =>
    emit s.settings (opcodeEvent s w) ++
      match decode s.settings.dispatch w with
      | .unknown => emit s.settings (.error (.unknown s.pc w))
      | .instr i =>
        match exec i s.enforceZero with
        | .next t => completionEvents i t
        | .fault _ => []
        | .refused _ => []

/-- One `step()` as the host sees it (00_scope.md R12). A refusal is no outcome of the hardware; `exec` has none. -/
def stepReport (s : State) : Except Refusal StepReport :=
  match step s with
  | .next t => .ok { outcome := .continued, state := t, events := stepEvents s }
  | .fault f => .ok (takeCondition f (stepEvents s) s)
  | .refused r => .error r

/-- The number of an access kind (60_exceptions.md R201). -/
def accessKindCode : AccessKind → Nat
  | .fetch => 0
  | .load => 1
  | .store => 2

/-- The number of an outcome (60_exceptions.md R201, decision D11). -/
def outcomeCode : StepOutcome → Nat
  | .continued => 0
  | .unknownInstruction => 1
  | .trap (.busMiss _ _) => 2
  | .trap (.unsupportedAccessWidth _) => 3

/-- The payload of an outcome's number: the kind's number and the address, or the size (60_exceptions.md R201). -/
def outcomePayload : StepOutcome → List Nat
  | .continued => []
  | .unknownInstruction => []
  | .trap (.busMiss kind addr) => [accessKindCode kind, addr.toNat]
  | .trap (.unsupportedAccessWidth sizeBits) => [sizeBits]

end Sys2Proof.Machine
end

