-- ==== Sys2Proof/Machine/HostPort.lean ====
section
/-!
DEFINITION. The host's moves between steps and its run loops: spec/00_scope.md R12, R15; 40_step_engine.md R148 to R151;
20_memory.md R86.
-/

namespace Sys2Proof.Machine

/-- What the inspection port shows between steps (00_scope.md R15). -/
structure Inspection where
  x : Vector Word 32
  pc : Word
  deriving DecidableEq, Repr

/-- INSPECT: the host may read `x[0..31]` and `pc` (00_scope.md R15). -/
def State.inspect (s : State) : Inspection := { x := Vector.ofFn (fun r => s.readReg r), pc := s.pc }

/-- The host or a device model changes the context of region `r` between steps (20_memory.md R86). None where this is
no move of the host's: no such region, a context of another kind (DESIGN CHOICE, log entry 12), or one not in canonical
form (DESIGN CHOICE, log entry 3). -/
def setContext (r : Nat) (c : Context) (s : State) : Option State :=
  match s.regions[r]? with
  | none => none
  | some reg =>
    if c.sameKind reg.ctx && c.wf reg.length then
      some (s.setRegions (s.regions.modify r (fun reg => { reg with ctx := c })))
    else none

/-- The context with an image's bytes placed from an offset on; a device has no bytes. -/
def placeImage : Context → Nat → List Byte → Option Context
  | .bytes m, offset, image => some (.bytes (m.writeList offset image))
  | .device _ _, _, _ => none

/-- The program loader puts a binary image into region `r` (70_reset_and_hazards.md R242; 20_memory.md R86). The spec
leaves open what becomes of an image that runs past the region's end, and of one for a region that is no memory: the model
has no such move, whatever bytes the image holds (DESIGN CHOICE, log entry 18). -/
def loadImage (r offset : Nat) (image : List Byte) (s : State) : Option State :=
  match s.regions[r]? with
  | none => none
  | some reg =>
    if offset + image.length ≤ reg.length.toNat then
      match placeImage reg.ctx offset image with
      | none => none
      | some c => setContext r c s
    else none

/-- What the host may do between steps that can change the machine (40_step_engine.md R150). -/
inductive HostMove where
  | step
  | setContext (r : Nat) (c : Context)
  | loadImage (r offset : Nat) (image : List Byte)
  deriving DecidableEq, Repr

/-- The state after a host's move. After a `step` it is the state the report leaves, whatever the outcome (R142,
60_exceptions.md R208). None where the move is not open to the host. -/
def hostMove (m : HostMove) (s : State) : Option State :=
  match m with
  | .step =>
    match stepReport s with
    | .ok report => some (resume report)
    | .error _ => none
  | .setContext r c => Sys2Proof.Machine.setContext r c s
  | .loadImage r offset image => Sys2Proof.Machine.loadImage r offset image s

/-- `HOST_POLICY` (00_scope.md R10, 40_step_engine.md R149): given the outcomes so far, the latest first, whether the
host calls `step()` again. -/
abbrev HostPolicy := List StepOutcome → Bool

/-- "one driver variant stops the loop on any non-`Continue` outcome" (R149). -/
def haltOnNonContinue : HostPolicy
  | [] => true
  | o :: _ => o == .continued

/-- "another ignores the outcome and always executes a fixed number of steps" (R149). -/
def fixedStepCount (n : Nat) : HostPolicy := fun outcomes => decide (outcomes.length < n)

/-- A run as the host sees it: the outcomes, the latest first, the state and the events in order. -/
structure HostRun where
  outcomes : List StepOutcome
  state : State
  events : List TraceEvent
  deriving DecidableEq, Repr

/-- The run as it stands before the first step. -/
def HostRun.start (s : State) : HostRun := { outcomes := [], state := s, events := [] }

/-- The run with one more step's report. -/
def HostRun.extend (run : HostRun) (report : StepReport) : HostRun :=
  { outcomes := report.outcome :: run.outcomes
    state := resume report
    events := run.events ++ report.events }

/-- The host's run loop (R149, R151), for at most `fuel` steps. -/
def runHost (policy : HostPolicy) : (fuel : Nat) → HostRun → Except Refusal HostRun
  | 0, run => .ok run
  | fuel + 1, run =>
    if policy run.outcomes then
      match stepReport run.state with
      | .ok report => runHost policy fuel (run.extend report)
      | .error r => .error r
    else .ok run

end Sys2Proof.Machine
end

