-- ==== Sys2Proof/Safety.lean ====
section
/-!
DEFINITION. The terms claims are stated in: the invariant of the state, the law that makes a region a memory region
(spec/20_memory.md R77), and the states a host can bring the machine to.
-/

namespace Sys2Proof

/-- The instruction is one of the two placeholders. -/
def Instr.isStub : Instr → Bool
  | .addi _ _ _ => false
  | .add _ _ _ => false
  | .stub37 _ => true
  | .stub36 _ => true

/-- A region "is a memory region when `load_r(store_r(c, o, b), o) = b` and `load_r(store_r(c, o, b), o') =
load_r(c, o')` for `o' != o`" (20_memory.md R77), for every context of the region's own kind. -/
def Region.IsMemory (r : Region) : Prop :=
  r.canLoad = true ∧ r.canStore = true ∧
    ∀ (c : Context) (o : Word) (b : Byte), c.sameKind r.ctx = true → c.wf r.length = true → o < r.length →
      (c.store o b).load o = b ∧ ∀ o', o' ≠ o → (c.store o b).load o' = c.load o'

end Sys2Proof

namespace Sys2Proof.Machine

/-- The invariant: every region satisfies 20_memory.md R61 and keeps its context in canonical form. -/
abbrev State.Inv (s : State) : Prop := ∀ r ∈ s.regions, r.wf = true

/-- The byte a load at an address reads, by the router (20_memory.md R66). -/
def readByte (s : State) (a : Word) : Except TrapReason Word := memRead s a 1

/-- What an instruction leaves alone beside its destination register and `pc`: the regions with their contexts, the
configuration, and every byte of memory as the router reads it. -/
def RestUnchanged (s t : State) : Prop :=
  t.regions = s.regions ∧ t.settings = s.settings ∧ ∀ a, readByte t a = readByte s a

/-- The only register that may differ, and what it and the rest hold: `rd` holds `v` unless it is `x0`, which stays 0
(10_state.md R32, R33). -/
def OnlyWrites (rd : Reg) (v : Word) (s t : State) : Prop :=
  (rd ≠ 0 → t.readReg rd = v) ∧ t.readReg 0 = 0 ∧ ∀ r, r ≠ rd → t.readReg r = s.readReg r

/-- Two states that differ at most in the trace settings: the flags and the presence of the sink. -/
def SameButTrace (s t : State) : Prop :=
  s.x = t.x ∧ s.pc = t.pc ∧ s.regions = t.regions ∧ s.settings.initialPc = t.settings.initialPc ∧
    s.settings.dispatch = t.settings.dispatch

/-- The states a host can bring a machine to, from a constructed one, by its moves between steps
(40_step_engine.md R150). -/
inductive Reachable : State → Prop where
  | constructed {c : Config} {s : State} (h : construct c = .ok s) : Reachable s
  | moved {m : HostMove} {s t : State} (h : Reachable s) (hm : hostMove m s = some t) : Reachable t

end Sys2Proof.Machine
end

