-- ==== Sys2Proof/Certificates/Slice0/Obligations.lean ====
section
/-!
DEFINITION. The statements about the model. Each docstring names the rule of spec/ it comes from. Where a clause rests on
a decision or an inference that the spec marks as its own, or on a choice of the model, the docstring says so; those
statements have basis 'derived' in OBLIGATIONS.json.
-/

open Sys2Proof Sys2Proof.Machine

/-! ### Registers and reset (10_state.md, 70_reset_and_hazards.md) -/

/-- 10_state.md R31, R32: every register reads 0 after reset and what was last written after that; a write replaces the
whole value; index 0 reads 0 and its writes are discarded. Nothing else changes. -/
def Obligations.RegisterReadAfterWrite : Prop :=
  (∀ (c : Config) (s : State), construct c = .ok s → ∀ r, s.readReg r = 0) ∧
    ∀ (s : State) (r : Reg) (v : Word),
      (s.writeReg r v).readReg r = (if r = 0 then 0 else v) ∧
        (s.writeReg r v).readReg 0 = 0 ∧
        (∀ q, q ≠ r → (s.writeReg r v).readReg q = s.readReg q) ∧
        (s.writeReg r v).pc = s.pc ∧ (s.writeReg r v).regions = s.regions ∧
        (s.writeReg r v).settings = s.settings

/-- 70_reset_and_hazards.md R240: the state after construction, item by item, for every configuration that is not
refused; the default of `INITIAL_PC` is 0. -/
def Obligations.ConstructionGivesResetState : Prop :=
  (∀ (c : Config) (s : State), construct c = .ok s →
      (∀ r, s.readReg r = 0) ∧ s.pc = c.settings.initialPc ∧ s.regions = c.regions ∧ s.settings = c.settings) ∧
    resetSettings.initialPc = 0

/-- The model's `State.reset` is the construction from no region and the default settings (DESIGN CHOICE of log entries 1
and 2 where 00_scope.md R9 gives no default), with `INITIAL_PC` 0 and both parameters of R10 false. -/
def Obligations.ResetIsTheDefaultConstruction : Prop :=
  construct { settings := resetSettings, regions := [] } = .ok State.reset ∧ State.reset.pc = 0 ∧
    (∀ r, State.reset.readReg r = 0) ∧ State.reset.settings.dispatch = ⟨false, false⟩

/-- 20_memory.md R61 under decision D8: construction refuses as overflowing exactly the configurations with a region whose
`base + length` exceeds `2^64 - 1`; and it accepts every other one whose memory contexts are in the model's canonical form
(log entry 3). -/
def Obligations.ConstructionRefusesOverflowingRegions : Prop :=
  ∀ c : Config,
    ((∃ i, construct c = .error (.regionOverflows i)) ↔ ∃ r ∈ c.regions, 2 ^ 64 - 1 < r.base.toNat + r.length.toNat) ∧
      ((∃ s, construct c = .ok s) ↔
        ∀ r ∈ c.regions, r.base.toNat + r.length.toNat ≤ 2 ^ 64 - 1 ∧ r.ctx.wf r.length = true)

/-- 20_memory.md R61 under decisions D8 and D26: no access ever resolves the byte at `2^64 - 1`, and a region of length 0
covers no address. -/
def Obligations.TopByteAndEmptyRegionsAreUnmapped : Prop :=
  (∀ s : State, s.Inv → ∀ cap, resolve s.regions cap (BitVec.ofNat 64 (2 ^ 64 - 1)) = none) ∧
    ∀ (r : Region) (a : Word), r.length = 0 → r.covers a = false

/-! ### The memory bus router (20_memory.md) -/

/-- 20_memory.md R64: a byte resolves to the lowest index of a region that covers it and has the capability, and to none
if there is no such region. -/
def Obligations.ResolveIsTheFirstMatch : Prop :=
  ∀ (rs : List Region) (cap : Capability) (a : Word),
    let matching := fun r : Region =>
      r.base.toNat ≤ a.toNat ∧ a.toNat < r.base.toNat + r.length.toNat ∧
        (match cap with
          | .load => r.canLoad = true
          | .store => r.canStore = true)
    (∀ h : Hit, resolve rs cap a = some h ↔
      rs[h.index]? = some h.region ∧ matching h.region ∧ ∀ j, j < h.index → ∀ r, rs[j]? = some r → ¬ matching r) ∧
    (resolve rs cap a = none ↔ ∀ r ∈ rs, ¬ matching r)

/-- 20_memory.md R79: of two overlapping regions, the first load-only and the second load and store, a load is served by
the first and a store by the second. -/
def Obligations.OverlapIsServedByCapability : Prop :=
  ∀ (r1 r2 : Region) (a v : Word),
    r1.canLoad = true → r1.canStore = false → r2.canLoad = true → r2.canStore = true →
    r1.covers a = true → r2.covers a = true →
      routerLoad [r1, r2] .load a 8 = .ok ((r1.loadAt a).setWidth 64) ∧
        routerStore [r1, r2] a v 8 = .ok [r1, r2.storeAt a (v.setWidth 8)]

/-- 20_memory.md R66 (order of checks and calls by decisions D6, D28): a load whose bytes all resolve gives the
little-endian composition of what the load capabilities answer at the offsets of those bytes, each byte resolved on its
own, with zeros above. Any address: nothing is asked of alignment (R74). -/
def Obligations.LoadComposesResolvedBytes : Prop :=
  ∀ (rs : List Region) (kind : AccessKind) (a : Word) (n : Nat), n = 8 ∨ n = 16 ∨ n = 32 ∨ n = 64 →
    (∀ i, i < n / 8 → ∃ h, resolve rs .load (a + BitVec.ofNat 64 i) = some h) →
    ∃ v, routerLoad rs kind a n = .ok v ∧ v.toNat < 2 ^ n ∧
      ∀ i, i < n / 8 → ∀ h, resolve rs .load (a + BitVec.ofNat 64 i) = some h →
        byteOf v i = h.region.ctx.load (a + BitVec.ofNat 64 i - h.region.base)

/-- 20_memory.md R70 (all-or-nothing by decision D6, the lowest byte by D24 and D29): an access with a byte that resolves
to nothing is `BusMiss` of its kind at the lowest such byte, for loads and stores; it gives no value and no new
context. -/
def Obligations.LowestMissedByteIsReported : Prop :=
  ∀ (rs : List Region) (kind : AccessKind) (a v : Word) (n i : Nat), n = 8 ∨ n = 16 ∨ n = 32 ∨ n = 64 → i < n / 8 →
    (resolve rs .load (a + BitVec.ofNat 64 i) = none →
      (∀ j, j < i → resolve rs .load (a + BitVec.ofNat 64 j) ≠ none) →
      routerLoad rs kind a n = .error (.busMiss kind (a + BitVec.ofNat 64 i))) ∧
    (resolve rs .store (a + BitVec.ofNat 64 i) = none →
      (∀ j, j < i → resolve rs .store (a + BitVec.ofNat 64 j) ≠ none) →
      routerStore rs a v n = .error (.busMiss .store (a + BitVec.ofNat 64 i)))

/-- 20_memory.md R69 (checked before any resolution by decision D24): a size outside 8, 16, 32, 64 is
`UnsupportedAccessWidth`, even where the address misses. -/
def Obligations.UnsupportedWidthIsReported : Prop :=
  ∀ (rs : List Region) (kind : AccessKind) (a v : Word) (n : Nat), n ≠ 8 → n ≠ 16 → n ≠ 32 → n ≠ 64 →
    routerLoad rs kind a n = .error (.unsupportedAccessWidth n) ∧
      routerStore rs a v n = .error (.unsupportedAccessWidth n)

/-- 20_memory.md R68 (order of checks and calls by decisions D6, D28): a store of 8, 16, 32 or 64 bits whose bytes all
resolve for the store capability succeeds, at any address; and a successful store calls, byte 0 first, the store capability
of each byte's region at the byte's offset with byte `i` of the value, each call seeing the context the one before left;
nothing but contexts changes. -/
def Obligations.StoreCallsCapabilitiesInByteOrder : Prop :=
  ∀ (rs : List Region) (a v : Word) (n : Nat),
    (n = 8 ∨ n = 16 ∨ n = 32 ∨ n = 64 →
      (∀ i, i < n / 8 → ∃ h, resolve rs .store (a + BitVec.ofNat 64 i) = some h) →
      ∃ rs', routerStore rs a v n = .ok rs') ∧
    ∀ rs' : List Region, routerStore rs a v n = .ok rs' →
      rs'.length = rs.length ∧
        ∀ (k : Nat) (r : Region), rs[k]? = some r →
          rs'[k]? = some { r with
            ctx := (List.range (n / 8)).foldl
              (fun c i =>
                if resolve rs .store (a + BitVec.ofNat 64 i) = some ⟨k, r⟩ then
                  c.store (a + BitVec.ofNat 64 i - r.base) (byteOf v i)
                else c)
              r.ctx }

/-- 20_memory.md R68, R77: in the bytes of a memory context a store writes its own bytes and leaves every other byte
alone, and the context stays in the model's canonical form (log entry 3). -/
def Obligations.StoreWritesExactlyItsBytes : Prop :=
  ∀ (rs rs' : List Region) (a v : Word) (n : Nat), (∀ r ∈ rs, r.wf = true) → routerStore rs a v n = .ok rs' →
    ∀ (k : Nat) (r : Region) (m : Memory), rs[k]? = some r → r.ctx = .bytes m →
      ∃ r' m', rs'[k]? = some r' ∧ r'.ctx = .bytes m' ∧ m'.wf = true ∧
        (∀ i, i < n / 8 → resolve rs .store (a + BitVec.ofNat 64 i) = some ⟨k, r⟩ →
          m'.read (a + BitVec.ofNat 64 i - r.base).toNat = byteOf v i) ∧
        ∀ o, (∀ i, i < n / 8 → resolve rs .store (a + BitVec.ofNat 64 i) = some ⟨k, r⟩ →
          (a + BitVec.ofNat 64 i - r.base).toNat ≠ o) → m'.read o = m.read o

/-- 20_memory.md R73, R77 (95_test_vectors.md W4, W5): after a store whose bytes lie in memory regions that also serve
their loads, a load of any supported width inside the stored bytes gives the corresponding bytes of the value,
zero-extended. -/
def Obligations.NarrowLoadSeesBytesOfWiderStore : Prop :=
  ∀ (rs rs' : List Region) (kind : AccessKind) (a v : Word) (n j m : Nat), (∀ r ∈ rs, r.wf = true) →
    routerStore rs a v n = .ok rs' →
    (∀ i, i < n / 8 → ∃ h, h.region.IsMemory ∧ resolve rs .store (a + BitVec.ofNat 64 i) = some h ∧
      resolve rs .load (a + BitVec.ofNat 64 i) = some h) →
    (m = 8 ∨ m = 16 ∨ m = 32 ∨ m = 64) → 8 * j + m ≤ n →
      routerLoad rs' kind (a + BitVec.ofNat 64 j) m = .ok (((v >>> (8 * j)).setWidth m).setWidth 64)

/-! ### Encoding (30_encoding.md) -/

/-- 30_encoding.md R102: the fields of every word, whatever its opcode, as numbers; the immediate by its sign. -/
def Obligations.FieldsOfEveryWord : Prop :=
  ∀ w : InstrWord,
    (opcodeOf w).toNat = w.toNat % 2 ^ 7 ∧ (rdOf w).val = w.toNat / 2 ^ 7 % 2 ^ 5 ∧
      (funct3Of w).toNat = w.toNat / 2 ^ 12 % 2 ^ 3 ∧ (rs1Of w).val = w.toNat / 2 ^ 15 % 2 ^ 5 ∧
      (rs2Of w).val = w.toNat / 2 ^ 20 % 2 ^ 5 ∧ (funct7Of w).toNat = w.toNat / 2 ^ 25 ∧
      (immOf w).toInt = (if w.toNat / 2 ^ 20 < 2 ^ 11 then (w.toNat / 2 ^ 20 : Int) else (w.toNat / 2 ^ 20 : Int) - 2 ^ 12)

/-- 30_encoding.md R105: the immediate is bits 31..20 sign-extended to 64 bits: its low 12 bits are the field, every bit
above is the field's top bit, and it lies in [-2048, 2047]. -/
def Obligations.ImmediateIsSignExtended : Prop :=
  ∀ w : InstrWord, (immOf w).extractLsb' 0 12 = w.extractLsb' 20 12 ∧
    (∀ j, 12 ≤ j → j < 64 → (immOf w).getLsbD j = w.getLsbD 31) ∧
    -2048 ≤ (immOf w).toInt ∧ (immOf w).toInt ≤ 2047

/-- 30_encoding.md R108 to R110 under decisions D2 and D3 (the funct values are general knowledge, log entry 5): each
instruction is selected by its row's mask and match, by the opcode alone in legacy dispatch, and the stubs only under
`STUB_PLACEHOLDERS`; everything else is UNKNOWN (R111). -/
def Obligations.DecodeFollowsTheOpcodeTable : Prop :=
  ∀ (legacy stub : Bool) (w : InstrWord),
    let isAddi := w &&& (if legacy then 0x0000007F#32 else 0x0000707F#32) = 0x00000013#32
    let isAdd := w &&& (if legacy then 0x0000007F#32 else 0xFE00707F#32) = 0x00000033#32
    let isStub37 := stub = true ∧ w &&& 0x0000007F#32 = 0x00000037#32
    let isStub36 := stub = true ∧ w &&& 0x0000007F#32 = 0x00000036#32
    (isAddi → decode ⟨legacy, stub⟩ w = .instr (.addi (rdOf w) (rs1Of w) (immOf w))) ∧
      (isAdd → decode ⟨legacy, stub⟩ w = .instr (.add (rdOf w) (rs1Of w) (rs2Of w))) ∧
      (isStub37 → decode ⟨legacy, stub⟩ w = .instr (.stub37 (w.extractLsb' 7 25))) ∧
      (isStub36 → decode ⟨legacy, stub⟩ w = .instr (.stub36 (w.extractLsb' 7 25))) ∧
      (¬ isAddi → ¬ isAdd → ¬ isStub37 → ¬ isStub36 → decode ⟨legacy, stub⟩ w = .unknown)

/-- 30_encoding.md R101: the low two bits are not used to find a length; a word whose low two bits are not `11` is UNKNOWN
under every setting, unless it is the placeholder 0x36 with `STUB_PLACEHOLDERS`. -/
def Obligations.LowBitsSelectNoLength : Prop :=
  ∀ (m : DispatchMode) (w : InstrWord), w.extractLsb' 0 2 ≠ 0b11#2 →
    decode m w =
      (if m.stubPlaceholders = true ∧ opcodeOf w = 0x36#7 then .instr (.stub36 (ignoredOf w)) else .unknown)

/-- 30_encoding.md R111, R116: decoding an encoded well-formed instruction gives it back, with every operand at every
value the encoding admits: `addi` and `add` under every setting, the stubs whenever `STUB_PLACEHOLDERS` is set. -/
def Obligations.DecodeInvertsEncode : Prop :=
  ∀ (i : Instr) (m : DispatchMode), i.wf = true → (i.isStub = true → m.stubPlaceholders = true) →
    decode m (encode i) = .instr i

/-- 30_encoding.md R108, R110: in strict dispatch every word that is an instruction is the encoding of that instruction,
which is well-formed: no bit is dropped, no two words are one instruction. -/
def Obligations.EncodeInvertsStrictDecode : Prop :=
  ∀ (stub : Bool) (w : InstrWord) (i : Instr), decode ⟨false, stub⟩ w = .instr i → i.wf = true ∧ encode i = w

/-- 30_encoding.md R116: the encoders are the shifts and ORs the rule writes, with its worked word. -/
def Obligations.EncodersAreTheRulesShifts : Prop :=
  (∀ (rd rs1 : Reg) (imm : Word), encode (.addi rd rs1 imm) =
      ((imm &&& 0xFFF#64).setWidth 32 <<< 20) ||| (BitVec.ofNat 32 rs1.val <<< 15) ||| (0#32 <<< 12) |||
        (BitVec.ofNat 32 rd.val <<< 7) ||| 0x13#32) ∧
    (∀ rd rs1 rs2 : Reg, encode (.add rd rs1 rs2) =
      (0#32 <<< 25) ||| (BitVec.ofNat 32 rs2.val <<< 20) ||| (BitVec.ofNat 32 rs1.val <<< 15) ||| (0#32 <<< 12) |||
        (BitVec.ofNat 32 rd.val <<< 7) ||| 0x33#32) ∧
    encode (.addi 10 0 5) = 0x00500513#32

/-- 95_test_vectors.md D-1, D-3, D-4, D-5, D-8, D-9, D-12 to D-15: words written out from the encoding decode as listed. -/
def Obligations.ListedWordsDecode : Prop :=
  decode ⟨false, false⟩ 0x00500513#32 = .instr (.addi 10 0 5) ∧
    decode ⟨false, false⟩ 0x7FF00093#32 = .instr (.addi 1 0 0x7FF#64) ∧
    decode ⟨false, false⟩ 0xFFF00093#32 = .instr (.addi 1 0 0xFFFFFFFFFFFFFFFF#64) ∧
    decode ⟨false, false⟩ 0x80000093#32 = .instr (.addi 1 0 0xFFFFFFFFFFFFF800#64) ∧
    decode ⟨false, false⟩ 0x002081B3#32 = .instr (.add 3 1 2) ∧
    decode ⟨false, false⟩ 0x402081B3#32 = .unknown ∧
    decode ⟨true, false⟩ 0x402081B3#32 = .instr (.add 3 1 2) ∧
    decode ⟨false, true⟩ 0x123450B7#32 = .instr (.stub37 0x2468A1#25) ∧
    decode ⟨false, false⟩ 0x123450B7#32 = .unknown ∧
    decode ⟨false, true⟩ 0x00000036#32 = .instr (.stub36 0#25) ∧
    decode ⟨true, true⟩ 0xFFFFFFFF#32 = .unknown ∧ decode ⟨true, true⟩ 0x00000000#32 = .unknown

/-! ### Instructions (41_integer_alu.md) -/

/-- 41_integer_alu.md R160: ADDI completes in every state, writes `x[rs1] + imm` modulo 2^64 to `rd` unless that is `x0`,
and changes nothing else: no other register, no memory byte, no configuration; `pc` is left to the step. -/
def Obligations.AddiCompletesWithItsSum : Prop :=
  ∀ (rd rs1 : Reg) (imm : Word) (s : State), ∃ t, exec (.addi rd rs1 imm) s = .next t ∧
    OnlyWrites rd (BitVec.ofNat 64 ((s.readReg rs1).toNat + imm.toNat)) s t ∧ t.pc = s.pc ∧ RestUnchanged s t

/-- 41_integer_alu.md R163: ADD completes in every state, writes `x[rs1] + x[rs2]` modulo 2^64 to `rd` unless that is `x0`,
both read before the write, and changes nothing else. -/
def Obligations.AddCompletesWithItsSum : Prop :=
  ∀ (rd rs1 rs2 : Reg) (s : State), ∃ t, exec (.add rd rs1 rs2) s = .next t ∧
    OnlyWrites rd (BitVec.ofNat 64 ((s.readReg rs1).toNat + (s.readReg rs2).toNat)) s t ∧ t.pc = s.pc ∧
    RestUnchanged s t

/-- 41_integer_alu.md R166 (decision D3): the stubs of 0x37 and 0x36 complete in every state, whatever their other bits
hold, and change nothing: no register, no memory byte, no configuration; `pc` is left to the step. -/
def Obligations.StubsCompleteAndChangeNothing : Prop :=
  ∀ (ignored : BitVec 25) (s : State),
    (∃ t, exec (.stub37 ignored) s = .next t ∧ (∀ r, t.readReg r = s.readReg r) ∧ t.pc = s.pc ∧ RestUnchanged s t) ∧
      ∃ t, exec (.stub36 ignored) s = .next t ∧ (∀ r, t.readReg r = s.readReg r) ∧ t.pc = s.pc ∧ RestUnchanged s t

/-- 10_state.md R35: ADDI's result depends on `x[rs1]` alone and ADD's on `x[rs1]` and `x[rs2]` alone; each writes `rd`
alone; a stub reads and writes no register; every register but `x0` can be read and written by these instructions. -/
def Obligations.RegistersEachInstructionAccesses : Prop :=
  (∀ (rd rs1 : Reg) (imm : Word) (s s' t t' : State), s.readReg rs1 = s'.readReg rs1 →
      exec (.addi rd rs1 imm) s = .next t → exec (.addi rd rs1 imm) s' = .next t' →
      t.readReg rd = t'.readReg rd ∧ ∀ r, r ≠ rd → t.readReg r = s.readReg r) ∧
    (∀ (rd rs1 rs2 : Reg) (s s' t t' : State), s.readReg rs1 = s'.readReg rs1 → s.readReg rs2 = s'.readReg rs2 →
      exec (.add rd rs1 rs2) s = .next t → exec (.add rd rs1 rs2) s' = .next t' →
      t.readReg rd = t'.readReg rd ∧ ∀ r, r ≠ rd → t.readReg r = s.readReg r) ∧
    (∀ (i : Instr) (s t : State), i.isStub = true → exec i s = .next t → ∀ r, t.readReg r = s.readReg r) ∧
    (∀ (r : Reg) (v : Word) (s : State), r ≠ 0 →
      ∃ t, exec (.addi r 0 v) s = .next t ∧ t.readReg r = v ∧
        ∀ q : Reg, q ≠ 0 → ∃ u, exec (.add q r 0) t = .next u ∧ u.readReg q = v) ∧
    ∀ (i : Instr) (s t : State), exec i s = .next t → t.readReg 0 = 0

/-- 41_integer_alu.md R162: the sum's bits are the same whether the operands are read as unsigned or as signed numbers, for
ADDI and ADD. -/
def Obligations.AdditionHasNoSignedness : Prop :=
  ∀ (rd rs1 rs2 : Reg) (imm : Word) (s t u : State), rd ≠ 0 →
    exec (.addi rd rs1 imm) s = .next t → exec (.add rd rs1 rs2) s = .next u →
      (t.readReg rd).toNat = ((s.readReg rs1).toNat + imm.toNat) % 2 ^ 64 ∧
        t.readReg rd = BitVec.ofInt 64 ((s.readReg rs1).toInt + imm.toInt) ∧
        (u.readReg rd).toNat = ((s.readReg rs1).toNat + (s.readReg rs2).toNat) % 2 ^ 64 ∧
        u.readReg rd = BitVec.ofInt 64 ((s.readReg rs1).toInt + (s.readReg rs2).toInt)

/-- 41_integer_alu.md R169: an ADDI or ADD with `rd = 0` is executed in full (`pc` advances, its Disasm event is emitted
when the sink is present and `decodeTrace` is set) and its result is discarded; every register reads as before and `x0`
reads 0. -/
def Obligations.DestinationZeroIsDiscarded : Prop :=
  ∀ (s : State) (w : InstrWord) (i : Instr), fetch s = .ok w → decode s.settings.dispatch w = .instr i →
    ((∃ rs1 imm, i = .addi 0 rs1 imm) ∨ ∃ rs1 rs2, i = .add 0 rs1 rs2) →
    ∃ t, step s = .next t ∧ (∀ r, t.readReg r = s.readReg r) ∧ t.readReg 0 = 0 ∧ t.pc = s.pc + 4 ∧
      RestUnchanged s t ∧
      (s.settings.sinkPresent = true → s.settings.flags.decodeTrace = true →
        ∃ e, disasmEvent s.settings.flags.useAbiNames i = some e ∧ e ∈ stepEvents s)

/-! ### Steps (40_step_engine.md) -/

/-- 40_step_engine.md R130, R135, R147 (decision D4): when the word at `pc` decodes to `i` and `i` ends in a state, the
step ends in that state with `pc` moved by 4. -/
def Obligations.StepRunsTheDecodedInstruction : Prop :=
  ∀ (s t : State) (w : InstrWord) (i : Instr), fetch s = .ok w → decode s.settings.dispatch w = .instr i →
    exec i s = .next t → step s = .next { t with pc := s.pc + 4 }

/-- 41_integer_alu.md R160, R161 with 40_step_engine.md R147: a step on a word with opcode 0x13 and funct3 000 (any funct3
in legacy dispatch) continues with `x[w[11:7]] = x[w[19:15]] + sext_64(w[31:20])`, `pc + 4` and nothing else changed. The
strict funct3 value is decision D2 (log entry 5), the pc rule decision D4. -/
def Obligations.AddiWordsStep : Prop :=
  ∀ (s : State) (w : InstrWord), fetch s = .ok w → opcodeOf w = 0x13#7 →
    (s.settings.dispatch.legacyOpcodeOnly = true ∨ funct3Of w = 0b000#3) →
    ∃ t, step s = .next t ∧
      OnlyWrites (rdOf w) (s.readReg (rs1Of w) + (w.extractLsb' 20 12).signExtend 64) s t ∧ t.pc = s.pc + 4 ∧
      RestUnchanged s t

/-- 41_integer_alu.md R163, R164 with 40_step_engine.md R147: a step on a word with opcode 0x33, funct3 000 and funct7
0000000 (any of both in legacy dispatch) continues with `x[w[11:7]] = x[w[19:15]] + x[w[24:20]]`, `pc + 4` and nothing
else changed. The strict funct values are decision D2 (log entry 5), the pc rule decision D4. -/
def Obligations.AddWordsStep : Prop :=
  ∀ (s : State) (w : InstrWord), fetch s = .ok w → opcodeOf w = 0x33#7 →
    (s.settings.dispatch.legacyOpcodeOnly = true ∨ (funct3Of w = 0b000#3 ∧ funct7Of w = 0b0000000#7)) →
    ∃ t, step s = .next t ∧
      OnlyWrites (rdOf w) (s.readReg (rs1Of w) + s.readReg (rs2Of w)) s t ∧ t.pc = s.pc + 4 ∧ RestUnchanged s t

/-- 41_integer_alu.md R166, R167 (decision D3): a step on a word with opcode 0x37 or 0x36 moves `pc` by 4 and changes
nothing else when `STUB_PLACEHOLDERS` is set, and is `UnknownInstruction` when it is not. -/
def Obligations.PlaceholderWordsStep : Prop :=
  ∀ (s : State) (w : InstrWord), fetch s = .ok w → (opcodeOf w = 0x37#7 ∨ opcodeOf w = 0x36#7) →
    step s =
      (if s.settings.dispatch.stubPlaceholders then .next { s with pc := s.pc + 4 } else .fault .unknownInstruction)

/-- 30_encoding.md R107: the opcode, the low 7 bits, selects the family, 0x13 for `addi`, 0x33 for `add`, 0x37 and 0x36 for
the placeholders; a word with any other opcode is `UnknownInstruction`, with an error-category trace: the Error event is
emitted exactly if the sink is present and `errorTrace` is set. -/
def Obligations.OtherOpcodesAreUnknown : Prop :=
  (∀ (m : DispatchMode) (w : InstrWord) (i : Instr), decode m w = .instr i →
      w.extractLsb' 0 7 =
        match i with
        | .addi _ _ _ => 0x13#7
        | .add _ _ _ => 0x33#7
        | .stub37 _ => 0x37#7
        | .stub36 _ => 0x36#7) ∧
    ∀ (s : State) (w : InstrWord), fetch s = .ok w → opcodeOf w ≠ 0x13#7 → opcodeOf w ≠ 0x33#7 →
      opcodeOf w ≠ 0x37#7 → opcodeOf w ≠ 0x36#7 →
      step s = .fault .unknownInstruction ∧
        (.error (.unknown s.pc w) ∈ stepEvents s ↔
          s.settings.sinkPresent = true ∧ s.settings.flags.errorTrace = true)

/-- 40_step_engine.md R141 and 60_exceptions.md R206 (`pc` unchanged by decision D4): a step on an UNKNOWN word reports
`UnknownInstruction` and leaves the whole state as it was. -/
def Obligations.UnknownWordLeavesTheState : Prop :=
  ∀ (s : State) (w : InstrWord), fetch s = .ok w → decode s.settings.dispatch w = .unknown →
    step s = .fault .unknownInstruction ∧
      stepReport s = .ok { outcome := .unknownInstruction, state := s, events := stepEvents s }

/-- 40_step_engine.md R137 (decisions D5, D6, D21): when byte `i` of the four at `pc` is the lowest that no region with a
Load capability covers, the step reports `Trap(BusMiss(Fetch, pc + i))`, leaves the whole state as it was and emits at
most the Error event. -/
def Obligations.FetchMissLeavesTheState : Prop :=
  ∀ (s : State) (i : Nat), i < 4 →
    (∀ r ∈ s.regions, ¬ (r.covers (s.pc + BitVec.ofNat 64 i) = true ∧ r.canLoad = true)) →
    (∀ j, j < i → ∃ r ∈ s.regions, r.covers (s.pc + BitVec.ofNat 64 j) = true ∧ r.canLoad = true) →
    let reason := TrapReason.busMiss .fetch (s.pc + BitVec.ofNat 64 i)
    step s = .fault (.trap reason) ∧
      stepReport s = .ok
        { outcome := .trap reason
          state := s
          events := if s.settings.sinkPresent && s.settings.flags.errorTrace then [.error (.fetchFault s.pc reason)] else [] }

/-- 40_step_engine.md R138 and 20_memory.md R88: a step continues exactly on a fetched word that decodes to an
instruction, is `UnknownInstruction` exactly on a fetched UNKNOWN word, and otherwise traps with a fetch miss at one of the
four bytes; it is never refused and never traps for a width. -/
def Obligations.OutcomesOfAStep : Prop :=
  ∀ s : State,
    ((∃ t, step s = .next t) ↔ ∃ w i, fetch s = .ok w ∧ decode s.settings.dispatch w = .instr i) ∧
      (step s = .fault .unknownInstruction ↔ ∃ w, fetch s = .ok w ∧ decode s.settings.dispatch w = .unknown) ∧
      (∀ reason, step s = .fault (.trap reason) ↔ fetch s = .error reason) ∧
      (∀ reason, step s = .fault (.trap reason) →
        ∃ i, i < 4 ∧ reason = .busMiss .fetch (s.pc + BitVec.ofNat 64 i)) ∧
      ∀ r, step s ≠ .refused r

/-- 40_step_engine.md R147, 60_exceptions.md R206, R207 (decisions D4, D5): a step that continues moves `pc` by 4 modulo
2^64; any other outcome leaves the whole state, `pc` with it, as it was. -/
def Obligations.PcMovesOnContinueOnly : Prop :=
  ∀ (s : State) (report : StepReport), stepReport s = .ok report →
    (report.outcome = .continued → report.state.pc = s.pc + 4) ∧ (report.outcome ≠ .continued → report.state = s)

/-- 40_step_engine.md R143, 60_exceptions.md R208: stepping again after a non-Continue outcome gives the same outcome and
the same events, as often as a host that counts steps does so. -/
def Obligations.ConditionRepeatsUntilTheHostActs : Prop :=
  ∀ (s : State) (report : StepReport) (n : Nat), stepReport s = .ok report → report.outcome ≠ .continued →
    ∃ run, runHost (fixedStepCount n) n (HostRun.start s) = .ok run ∧ run.state = s ∧
      run.outcomes = List.replicate n report.outcome ∧ run.events = (List.replicate n report.events).flatten

/-- 10_state.md R38 (decisions D7, D8): with well-formed regions `pc + 4` never wraps after a successful fetch, and every
fetch at `2^64 - 4` or above misses. -/
def Obligations.PcNeverWraps : Prop :=
  ∀ s : State, s.Inv →
    (∀ t, step s = .next t → t.pc.toNat = s.pc.toNat + 4) ∧
      (2 ^ 64 - 4 ≤ s.pc.toNat → ∃ a, step s = .fault (.trap (.busMiss .fetch a)))

/-- 41_integer_alu.md R171, 70_reset_and_hazards.md R246: no step changes a region, a byte of memory or the
configuration. -/
def Obligations.StepsWriteNoMemory : Prop := ∀ s t : State, step s = .next t → RestUnchanged s t

/-- 10_state.md R35 for the whole machine: a step changes at most the register its word names as `rd`, never `x0`, and only
for a word with opcode 0x13 or 0x33. -/
def Obligations.StepsWriteOneRegister : Prop :=
  ∀ s t : State, step s = .next t → ∃ w, fetch s = .ok w ∧
    ∀ r, t.readReg r ≠ s.readReg r → r ≠ 0 ∧ r = rdOf w ∧ (opcodeOf w = 0x13#7 ∨ opcodeOf w = 0x33#7)

/-- 10_state.md R43: `INITIAL_PC`, `REGIONS` (order, bases, lengths, capabilities) and `SINK_PRESENT` are constant under
every move of the host and every router store, and no instruction reads them. -/
def Obligations.ConfigurationIsConstant : Prop :=
  (∀ (m : HostMove) (s t : State), hostMove m s = some t →
      t.settings = s.settings ∧
        t.regions.map (fun r => (r.base, r.length, r.canLoad, r.canStore)) =
          s.regions.map (fun r => (r.base, r.length, r.canLoad, r.canStore))) ∧
    (∀ (a v : Word) (n : Nat) (s t : State), memWrite s a n v = .ok t →
      t.settings = s.settings ∧
        t.regions.map (fun r => (r.base, r.length, r.canLoad, r.canStore)) =
          s.regions.map (fun r => (r.base, r.length, r.canLoad, r.canStore))) ∧
    ∀ (i : Instr) (s t : State) (st : Settings) (rs : List Region), exec i s = .next t →
      exec i { s with settings := st, regions := rs } = .next { t with settings := st, regions := rs }

/-! ### Invariants -/

/-- The invariant (20_memory.md R61 for every region, and the model's canonical form of memory, log entry 3) holds after
reset and after every construction. -/
def Obligations.InvariantHoldsAfterConstruction : Prop :=
  State.reset.Inv ∧ ∀ (c : Config) (s : State), construct c = .ok s → s.Inv

/-- From every state that meets the invariant, reached or not, a step and every other move of the host, and every router
store, give a state that meets it. -/
def Obligations.EveryMoveKeepsTheInvariant : Prop :=
  (∀ s t : State, s.Inv → step s = .next t → t.Inv) ∧
    (∀ (m : HostMove) (s t : State), s.Inv → hostMove m s = some t → t.Inv) ∧
    ∀ (a v : Word) (n : Nat) (s t : State), s.Inv → memWrite s a n v = .ok t → t.Inv

/-- Every state a host can bring a constructed machine to meets the invariant. -/
def Obligations.ReachableStatesMeetTheInvariant : Prop := ∀ s : State, Reachable s → s.Inv

/-! ### Trace (45_diagnostics.md) -/

/-- 45_diagnostics.md R180: two states that differ at most in the flags and the presence of the sink step to the same
outcome and to states that again differ at most so. -/
def Obligations.TraceNeverChangesExecution : Prop :=
  ∀ s s' : State, SameButTrace s s' → ∃ report report', stepReport s = .ok report ∧ stepReport s' = .ok report' ∧
    report.outcome = report'.outcome ∧ SameButTrace report.state report'.state

/-- 45_diagnostics.md R181, R182: an event is sent if and only if the sink is present and the gate of its category holds:
Opcode needs `decodeTrace` and `verbose`, Disasm `decodeTrace`, Error `errorTrace`, RegDump `registerDump`. Every event of a
step passed its gate; without a sink, or with `verbose` and `useAbiNames` as the only flags set, there is none. The Disasm
gate and that those two enable nothing alone are decision D12 (log entry 16). -/
def Obligations.EventsPassTheirGates : Prop :=
  let open_ := fun (f : DiagnosticFlags) (e : TraceEvent) =>
    match e with
    | .opcode _ _ => f.decodeTrace = true ∧ f.verbose = true
    | .disasm _ _ _ => f.decodeTrace = true
    | .error _ => f.errorTrace = true
    | .regDump _ => f.registerDump = true
  (∀ (f : DiagnosticFlags) (e : TraceEvent), gate f e = true ↔ open_ f e) ∧
    (∀ (st : Settings) (e : TraceEvent),
      (st.sinkPresent = true ∧ open_ st.flags e → emit st e = [e]) ∧
        (¬ (st.sinkPresent = true ∧ open_ st.flags e) → emit st e = [])) ∧
    (∀ (s : State) (e : TraceEvent), e ∈ stepEvents s → s.settings.sinkPresent = true ∧ open_ s.settings.flags e) ∧
    (∀ s : State, s.settings.sinkPresent = false → stepEvents s = []) ∧
    ∀ (s : State) (verbose useAbiNames : Bool),
      s.settings.flags = ⟨false, false, false, verbose, useAbiNames⟩ → stepEvents s = []

/-- 45_diagnostics.md R183 to R187 (gates and contents by decisions D12, D13, D31): the events of a step that continues, in
order, are those of Opcode, Disasm (none for a stub) and RegDump (the registers after the instruction, each named) whose
gates hold. -/
def Obligations.EventsOfAContinuedStep : Prop :=
  ∀ (s t : State) (w : InstrWord) (i : Instr), fetch s = .ok w → decode s.settings.dispatch w = .instr i →
    step s = .next t →
    let name := regName s.settings.flags.useAbiNames
    let disasm : List TraceEvent :=
      match i with
      | .addi rd rs1 imm => [.disasm "addi" [name rd, name rs1] (some imm.toInt)]
      | .add rd rs1 rs2 => [.disasm "add" [name rd, name rs1, name rs2] none]
      | .stub37 _ => []
      | .stub36 _ => []
    let dump := (List.finRange 32).map (fun r => (name r, t.readReg r))
    stepEvents s =
      ([TraceEvent.opcode s.pc (w.extractLsb' 0 7)] ++ disasm ++ [TraceEvent.regDump dump]).filter
        (fun e => s.settings.sinkPresent && gate s.settings.flags e)

/-- 45_diagnostics.md R183, R185, R187 (decision D21): a step that does not continue emits, of Opcode then Error on an
UNKNOWN word, and of Error alone on a fetch failure, the events whose gates hold. -/
def Obligations.EventsOfAReportedCondition : Prop :=
  (∀ (s : State) (w : InstrWord), fetch s = .ok w → decode s.settings.dispatch w = .unknown →
      stepEvents s =
        [TraceEvent.opcode s.pc (w.extractLsb' 0 7), .error (.unknown s.pc w)].filter
          (fun e => s.settings.sinkPresent && gate s.settings.flags e)) ∧
    ∀ (s : State) (reason : TrapReason), fetch s = .error reason →
      stepEvents s =
        [TraceEvent.error (.fetchFault s.pc reason)].filter (fun e => s.settings.sinkPresent && gate s.settings.flags e)

/-- 45_diagnostics.md R190 with the table of 10_state.md R34 (all but `zero` and `a0` the spec's general knowledge): the
name of each register under both settings, and no two registers share a name under one. -/
def Obligations.RegisterNames : Prop :=
  (∀ r : Reg, regName false r = "x" ++ toString r.val) ∧
    (List.finRange 32).map (regName true) =
      ["zero", "ra", "sp", "gp", "tp", "t0", "t1", "t2", "s0", "s1", "a0", "a1", "a2", "a3", "a4", "a5", "a6", "a7",
        "s2", "s3", "s4", "s5", "s6", "s7", "s8", "s9", "s10", "s11", "t3", "t4", "t5", "t6"] ∧
    ∀ (abi : Bool) (r q : Reg), regName abi r = regName abi q → r = q

/-- 60_exceptions.md R201 (decision D11): the numbers of the outcomes and their payloads. -/
def Obligations.OutcomeNumbers : Prop :=
  outcomeCode .continued = 0 ∧ outcomeCode .unknownInstruction = 1 ∧
    (∀ (kind : AccessKind) (a : Word), outcomeCode (.trap (.busMiss kind a)) = 2 ∧
      outcomePayload (.trap (.busMiss kind a)) =
        [match kind with
          | .fetch => 0
          | .load => 1
          | .store => 2, a.toNat]) ∧
    ∀ n : Nat, outcomeCode (.trap (.unsupportedAccessWidth n)) = 3 ∧
      outcomePayload (.trap (.unsupportedAccessWidth n)) = [n]

/-! ### The host (40_step_engine.md §4, 20_memory.md R86, R87) -/

/-- 20_memory.md R87 (decision D15): after the host replaces the bytes of region `k`, that region holds the new bytes and
is otherwise as it was, and no other part of the machine has changed: no register, not `pc`, no setting, no other region.
If each of the four bytes at `pc` resolved to some region, in one region or straddling several, the next fetch reads the
new bytes where it reads region `k` and, at every other byte, what that byte's region held. -/
def Obligations.HostPatchIsSeenByTheNextFetch : Prop :=
  ∀ (s t : State) (k : Nat) (m : Memory), setContext k (.bytes m) s = some t →
    t.x = s.x ∧ t.pc = s.pc ∧ t.settings = s.settings ∧ t.regions.length = s.regions.length ∧
      (∃ r, s.regions[k]? = some r ∧ t.regions[k]? = some { r with ctx := .bytes m }) ∧
      (∀ j, j ≠ k → t.regions[j]? = s.regions[j]?) ∧
      ((∀ i, i < 4 → ∃ h, resolve s.regions .load (s.pc + BitVec.ofNat 64 i) = some h) →
        ∃ w, fetch t = .ok w ∧
          ∀ i, i < 4 → ∀ h, resolve s.regions .load (s.pc + BitVec.ofNat 64 i) = some h →
            w.extractLsb' (8 * i) 8 =
              (if h.index = k then m.read (s.pc + BitVec.ofNat 64 i - h.region.base).toNat
               else h.region.ctx.load (s.pc + BitVec.ofNat 64 i - h.region.base)))

/-- 70_reset_and_hazards.md R242, R243 with 30_encoding.md R100: once the loader has placed the bytes of a well-formed
instruction's word where the region that serves the four bytes at `pc` holds them, the next step runs that instruction. -/
def Obligations.LoadedInstructionRuns : Prop :=
  ∀ (s t u : State) (k : Nat) (r : Region) (i : Instr), s.Inv → i.wf = true →
    (i.isStub = true → s.settings.dispatch.stubPlaceholders = true) →
    (∀ j, j < 4 → resolve s.regions .load (s.pc + BitVec.ofNat 64 j) = some ⟨k, r⟩) →
    loadImage k (s.pc - r.base).toNat (bytesOfWord (encode i)) s = some t → exec i t = .next u →
      step t = .next { u with pc := t.pc + 4 }

/-- The model's own `withFetchWord` (log entries 6 and 7): in strict dispatch, wherever four bytes fit above `pc`, the very
next step runs exactly the instruction the decoder reads from those bits, with the registers and `pc` as they were. -/
def Obligations.FetchWordRuns : Prop :=
  ∀ (s u : State) (nbits w : Nat) (i : Instr), s.pc.toNat + 4 ≤ 2 ^ 64 - 1 →
    s.settings.dispatch.legacyOpcodeOnly = false → decodeTableWord nbits w = some i →
    exec i (s.withFetchWord nbits w) = .next u →
      step (s.withFetchWord nbits w) = .next { u with pc := s.pc + 4 } ∧ (s.withFetchWord nbits w).x = s.x

/-- 40_step_engine.md R149, R151: under the halt-on-non-Continue policy a run ends after the first step whose outcome is
not `Continue`: every outcome before the last is `Continue`, and a run that used fewer steps than allowed ended on one
that is not. -/
def Obligations.HaltingRunEndsAtTheFirstCondition : Prop :=
  ∀ (s : State) (fuel : Nat), ∃ run, runHost haltOnNonContinue fuel (HostRun.start s) = .ok run ∧
    run.outcomes.length ≤ fuel ∧ (∀ o ∈ run.outcomes.tail, o = .continued) ∧
    (run.outcomes.length < fuel → ∃ o rest, run.outcomes = o :: rest ∧ o ≠ .continued)

/-- 40_step_engine.md R149, R151: under the fixed-count policy a run is that many steps, whatever their outcomes. -/
def Obligations.FixedCountRunTakesItsSteps : Prop :=
  ∀ (s : State) (n fuel : Nat), n ≤ fuel →
    ∃ run, runHost (fixedStepCount n) fuel (HostRun.start s) = .ok run ∧ run.outcomes.length = n

/-! ### Assembler (30_encoding.md R117, R118) -/

/-- 30_encoding.md R117, R118 (decision D33; the pseudo-instructions are general knowledge): every statement the assembler
accepts gives a well-formed instruction, `addi` and `li` are accepted exactly for immediates in [-2048, 2047], and `nop`,
`mv` and `li` expand as listed. -/
def Obligations.AssemblerRefusesWideImmediates : Prop :=
  (∀ (stmt : AsmStmt) (i : Instr), assemble stmt = some i → i.wf = true) ∧
    (∀ (rd rs1 : Reg) (imm : Int),
      (assemble (.addi rd rs1 imm) =
        if -2048 ≤ imm ∧ imm ≤ 2047 then some (.addi rd rs1 (BitVec.ofInt 64 imm)) else none) ∧
      assemble (.li rd imm) = assemble (.addi rd 0 imm)) ∧
    assemble .nop = some (.addi 0 0 0) ∧ (∀ rd rs : Reg, assemble (.mv rd rs) = some (.addi rd rs 0)) ∧
    ∀ rd rs1 rs2 : Reg, assemble (.add rd rs1 rs2) = some (.add rd rs1 rs2)
end

