-- ==== Sys2Proof/Laws/Decode.lean ====
section
/-!
SUPPORT. The fields of an encoded word, and what a decoding says of its word (spec/30_encoding.md R102 to R111).
-/

namespace Sys2Proof

@[simp] theorem regBits_toFin (r : Reg) : (regBits r).toFin = r := rfl
@[simp] theorem regBits_rdOf (w : InstrWord) : regBits (rdOf w) = w.extractLsb' 7 5 := rfl
@[simp] theorem regBits_rs1Of (w : InstrWord) : regBits (rs1Of w) = w.extractLsb' 15 5 := rfl
@[simp] theorem regBits_rs2Of (w : InstrWord) : regBits (rs2Of w) = w.extractLsb' 20 5 := rfl

/-- Two registers with the same field are the same. -/
theorem regBits_inj {r q : Reg} (h : regBits r = regBits q) : r = q := by
  simpa [regBits] using congrArg BitVec.toFin h

/-- Bit `j` of the I-type layout (R104). -/
theorem encodeI_getLsbD (imm : BitVec 12) (rs1 : BitVec 5) (f3 : BitVec 3) (rd : BitVec 5) (op : BitVec 7) (j : Nat) :
    (encodeI imm rs1 f3 rd op).getLsbD j =
      if j < 7 then op.getLsbD j else if j < 12 then rd.getLsbD (j - 7) else if j < 15 then f3.getLsbD (j - 12)
      else if j < 20 then rs1.getLsbD (j - 15) else imm.getLsbD (j - 20) := by
  simp only [encodeI, BitVec.getLsbD_append]
  split_ifs <;> first | (exfalso; omega) | rfl

/-- Bit `j` of the R-type layout (R103). -/
theorem encodeR_getLsbD (f7 : BitVec 7) (rs2 rs1 : BitVec 5) (f3 : BitVec 3) (rd : BitVec 5) (op : BitVec 7) (j : Nat) :
    (encodeR f7 rs2 rs1 f3 rd op).getLsbD j =
      if j < 7 then op.getLsbD j else if j < 12 then rd.getLsbD (j - 7) else if j < 15 then f3.getLsbD (j - 12)
      else if j < 20 then rs1.getLsbD (j - 15) else if j < 25 then rs2.getLsbD (j - 20)
      else f7.getLsbD (j - 25) := by
  simp only [encodeR, BitVec.getLsbD_append]
  split_ifs <;> first | (exfalso; omega) | rfl

/-- A field of a word, given bit by bit. -/
theorem extract_eq {n : Nat} {w : InstrWord} {start : Nat} {v : BitVec n}
    (h : ∀ j, j < n → w.getLsbD (start + j) = v.getLsbD j) : w.extractLsb' start n = v := by
  refine BitVec.eq_of_getLsbD_eq fun j hj => ?_
  simp [hj, h j hj]

section I
variable (imm : BitVec 12) (rs1 : BitVec 5) (f3 : BitVec 3) (rd : BitVec 5) (op : BitVec 7)

@[simp] theorem opcodeOf_encodeI : opcodeOf (encodeI imm rs1 f3 rd op) = op :=
  extract_eq fun j hj => by rw [encodeI_getLsbD, if_pos (by omega)]; congr 1; omega
@[simp] theorem rdOf_encodeI : regBits (rdOf (encodeI imm rs1 f3 rd op)) = rd :=
  extract_eq fun j hj => by rw [encodeI_getLsbD, if_neg (by omega), if_pos (by omega)]; congr 1; omega
@[simp] theorem funct3Of_encodeI : funct3Of (encodeI imm rs1 f3 rd op) = f3 :=
  extract_eq fun j hj => by
    rw [encodeI_getLsbD, if_neg (by omega), if_neg (by omega), if_pos (by omega)]; congr 1; omega
@[simp] theorem rs1Of_encodeI : regBits (rs1Of (encodeI imm rs1 f3 rd op)) = rs1 :=
  extract_eq fun j hj => by
    rw [encodeI_getLsbD, if_neg (by omega), if_neg (by omega), if_neg (by omega), if_pos (by omega)]; congr 1; omega
@[simp] theorem immOf_encodeI : immOf (encodeI imm rs1 f3 rd op) = imm.signExtend 64 := by
  have : (encodeI imm rs1 f3 rd op).extractLsb' 20 12 = imm := extract_eq fun j hj => by
    rw [encodeI_getLsbD, if_neg (by omega), if_neg (by omega), if_neg (by omega), if_neg (by omega)]; congr 1; omega
  rw [immOf, this]

end I

section R
variable (f7 : BitVec 7) (rs2 rs1 : BitVec 5) (f3 : BitVec 3) (rd : BitVec 5) (op : BitVec 7)

@[simp] theorem opcodeOf_encodeR : opcodeOf (encodeR f7 rs2 rs1 f3 rd op) = op :=
  extract_eq fun j hj => by rw [encodeR_getLsbD, if_pos (by omega)]; congr 1; omega
@[simp] theorem rdOf_encodeR : regBits (rdOf (encodeR f7 rs2 rs1 f3 rd op)) = rd :=
  extract_eq fun j hj => by rw [encodeR_getLsbD, if_neg (by omega), if_pos (by omega)]; congr 1; omega
@[simp] theorem funct3Of_encodeR : funct3Of (encodeR f7 rs2 rs1 f3 rd op) = f3 :=
  extract_eq fun j hj => by
    rw [encodeR_getLsbD, if_neg (by omega), if_neg (by omega), if_pos (by omega)]; congr 1; omega
@[simp] theorem rs1Of_encodeR : regBits (rs1Of (encodeR f7 rs2 rs1 f3 rd op)) = rs1 :=
  extract_eq fun j hj => by
    rw [encodeR_getLsbD, if_neg (by omega), if_neg (by omega), if_neg (by omega), if_pos (by omega)]; congr 1; omega
@[simp] theorem rs2Of_encodeR : regBits (rs2Of (encodeR f7 rs2 rs1 f3 rd op)) = rs2 :=
  extract_eq fun j hj => by
    rw [encodeR_getLsbD, if_neg (by omega), if_neg (by omega), if_neg (by omega), if_neg (by omega),
      if_pos (by omega)]
    congr 1; omega
@[simp] theorem funct7Of_encodeR : funct7Of (encodeR f7 rs2 rs1 f3 rd op) = f7 :=
  extract_eq fun j hj => by
    rw [encodeR_getLsbD, if_neg (by omega), if_neg (by omega), if_neg (by omega), if_neg (by omega),
      if_neg (by omega)]
    congr 1; omega

end R

@[simp] theorem opcodeOf_append (g : BitVec 25) (op : BitVec 7) : opcodeOf (g ++ op : BitVec (25 + 7)) = op :=
  extract_eq fun j hj => by rw [BitVec.getLsbD_append, if_pos (by omega)]; congr 1; omega
@[simp] theorem ignoredOf_append (g : BitVec 25) (op : BitVec 7) : ignoredOf (g ++ op : BitVec (25 + 7)) = g :=
  extract_eq fun j hj => by rw [BitVec.getLsbD_append, if_neg (by omega)]; congr 1; omega

/-- A word is its own fields, in the I-type layout. -/
theorem encodeI_fields (w : InstrWord) :
    encodeI (w.extractLsb' 20 12) (w.extractLsb' 15 5) (funct3Of w) (w.extractLsb' 7 5) (opcodeOf w) = w := by
  refine BitVec.eq_of_getLsbD_eq fun j hj => ?_
  rw [encodeI_getLsbD]
  simp only [funct3Of, opcodeOf, BitVec.getLsbD_extractLsb']
  split_ifs <;> (rw [decide_eq_true (by omega), Bool.true_and]; congr 1; omega)

/-- A word is its own fields, in the R-type layout. -/
theorem encodeR_fields (w : InstrWord) :
    encodeR (funct7Of w) (w.extractLsb' 20 5) (w.extractLsb' 15 5) (funct3Of w) (w.extractLsb' 7 5) (opcodeOf w) =
      w := by
  refine BitVec.eq_of_getLsbD_eq fun j hj => ?_
  rw [encodeR_getLsbD]
  simp only [funct3Of, funct7Of, opcodeOf, BitVec.getLsbD_extractLsb']
  split_ifs <;> (rw [decide_eq_true (by omega), Bool.true_and]; congr 1; omega)

theorem append_fields (w : InstrWord) : (ignoredOf w ++ opcodeOf w : BitVec (25 + 7)) = w := by
  refine BitVec.eq_of_getLsbD_eq fun j hj => ?_
  rw [BitVec.getLsbD_append]
  simp only [ignoredOf, opcodeOf, BitVec.getLsbD_extractLsb']
  split_ifs <;> (rw [decide_eq_true (by omega), Bool.true_and]; congr 1; omega)

/-! ### Masks of the opcode table (R108, R110) -/

theorem and_allOnes3 (v : BitVec 3) : v &&& 7#3 = v := BitVec.and_allOnes (x := v)
theorem and_allOnes7 (v : BitVec 7) : v &&& 127#7 = v := BitVec.and_allOnes (x := v)

theorem opcode_append_inj {g h : BitVec 25} {a b : BitVec 7} :
    (g ++ a : BitVec (25 + 7)) = (h ++ b : BitVec (25 + 7)) ↔ g = h ∧ a = b := by
  refine ⟨fun e => ⟨?_, ?_⟩, fun e => by rw [e.1, e.2]⟩
  · simpa using congrArg ignoredOf e
  · simpa using congrArg opcodeOf e

/-- Masking with 0x7F keeps the opcode alone. -/
theorem opcode_mask {w : InstrWord} {op : BitVec 7} :
    w &&& 0x7F#32 = (0#25 ++ op : BitVec (25 + 7)) ↔ opcodeOf w = op := by
  have hand : w &&& 0x7F#32 = (0#25 ++ opcodeOf w : BitVec (25 + 7)) := by
    conv_lhs => rw [← append_fields w]
    refine BitVec.eq_of_getLsbD_eq fun j hj => ?_
    rw [BitVec.getLsbD_and, show (0x7F#32 : InstrWord) = (0#25 ++ 0x7F#7 : BitVec (25 + 7)) from rfl]
    simp only [BitVec.getLsbD_append]
    split_ifs with h
    · rw [show (0x7F#7 : BitVec 7) = BitVec.allOnes 7 from rfl, BitVec.getLsbD_allOnes, decide_eq_true h,
        Bool.and_true]
    · simp
  rw [hand, opcode_append_inj]
  simp

theorem encodeI_and (imm imm' : BitVec 12) (rs1 rs1' : BitVec 5) (f3 f3' : BitVec 3) (rd rd' : BitVec 5)
    (op op' : BitVec 7) :
    encodeI imm rs1 f3 rd op &&& encodeI imm' rs1' f3' rd' op' =
      encodeI (imm &&& imm') (rs1 &&& rs1') (f3 &&& f3') (rd &&& rd') (op &&& op') := by
  refine BitVec.eq_of_getLsbD_eq fun j hj => ?_
  simp only [BitVec.getLsbD_and, encodeI_getLsbD]
  split_ifs <;> rfl

theorem encodeR_and (f7 f7' : BitVec 7) (rs2 rs2' rs1 rs1' : BitVec 5) (f3 f3' : BitVec 3) (rd rd' : BitVec 5)
    (op op' : BitVec 7) :
    encodeR f7 rs2 rs1 f3 rd op &&& encodeR f7' rs2' rs1' f3' rd' op' =
      encodeR (f7 &&& f7') (rs2 &&& rs2') (rs1 &&& rs1') (f3 &&& f3') (rd &&& rd') (op &&& op') := by
  refine BitVec.eq_of_getLsbD_eq fun j hj => ?_
  simp only [BitVec.getLsbD_and, encodeR_getLsbD]
  split_ifs <;> rfl

/-- The row of `addi`: opcode and funct3. -/
theorem addi_mask {w : InstrWord} :
    w &&& 0x0000707F#32 = 0x00000013#32 ↔ opcodeOf w = 0x13#7 ∧ funct3Of w = 0b000#3 := by
  have hm : (0x0000707F#32 : InstrWord) = encodeI 0 0 0b111#3 0 0x7F#7 := by decide
  have hv : (0x00000013#32 : InstrWord) = encodeI 0 0 0b000#3 0 0x13#7 := by decide
  have hand : w &&& 0x0000707F#32 = encodeI 0 0 (funct3Of w) 0 (opcodeOf w) := by
    conv_lhs => rw [← encodeI_fields w, hm, encodeI_and]
    simp [and_allOnes3, and_allOnes7]
  rw [hand, hv]
  exact ⟨fun h => ⟨by simpa using congrArg opcodeOf h, by simpa using congrArg funct3Of h⟩, fun h => by
    rw [h.1, h.2]⟩

/-- The row of `add`: opcode, funct3 and funct7. -/
theorem add_mask {w : InstrWord} :
    w &&& 0xFE00707F#32 = 0x00000033#32 ↔
      opcodeOf w = 0x33#7 ∧ funct3Of w = 0b000#3 ∧ funct7Of w = 0b0000000#7 := by
  have hm : (0xFE00707F#32 : InstrWord) = encodeR 0x7F#7 0 0 0b111#3 0 0x7F#7 := by decide
  have hv : (0x00000033#32 : InstrWord) = encodeR 0b0000000#7 0 0 0b000#3 0 0x33#7 := by decide
  have hand : w &&& 0xFE00707F#32 = encodeR (funct7Of w) 0 0 (funct3Of w) 0 (opcodeOf w) := by
    conv_lhs => rw [← encodeR_fields w, hm, encodeR_and]
    simp [and_allOnes3, and_allOnes7]
  rw [hand, hv]
  exact ⟨fun h => ⟨by simpa using congrArg opcodeOf h, by simpa using congrArg funct3Of h,
    by simpa using congrArg funct7Of h⟩, fun h => by rw [h.1, h.2.1, h.2.2]⟩

/-! ### Immediates -/

/-- An immediate that fits comes back from its 12 bits (R105, R116). -/
theorem signExtend_imm12Of {imm : Word} (h : immFits imm = true) : (imm12Of imm).signExtend 64 = imm := by
  simp only [immFits, decide_eq_true_eq] at h
  refine BitVec.eq_of_toInt_eq ?_
  rw [BitVec.toInt_signExtend_of_le (by omega), imm12Of, BitVec.toInt_setWidth, Int.bmod_def]
  have := BitVec.toInt_eq_toNat_cond imm
  have := imm.isLt
  omega

/-- Every immediate that is decoded fits (R105). -/
theorem immFits_signExtend (v : BitVec 12) : immFits (v.signExtend 64) = true := by
  simp only [immFits, decide_eq_true_eq]
  rw [BitVec.toInt_signExtend_of_le (by omega)]
  have := BitVec.toInt_lt (x := v)
  have := BitVec.le_toInt (x := v)
  omega

@[simp] theorem imm12Of_signExtend (v : BitVec 12) : imm12Of (v.signExtend 64) = v := by
  refine BitVec.eq_of_getLsbD_eq fun j hj => ?_
  simp [imm12Of, BitVec.getLsbD_signExtend, hj]
  omega

/-! ### What a decoding says -/

/-- Everything the decoder can answer with an instruction (R111). -/
theorem decode_instr {m : DispatchMode} {w : InstrWord} {i : Instr} :
    decode m w = .instr i ↔
      (selectsAddi m w = true ∧ i = .addi (rdOf w) (rs1Of w) (immOf w)) ∨
      (selectsAdd m w = true ∧ i = .add (rdOf w) (rs1Of w) (rs2Of w)) ∨
      (selectsStub m 0x37#7 w = true ∧ i = .stub37 (ignoredOf w)) ∨
      (selectsStub m 0x36#7 w = true ∧ i = .stub36 (ignoredOf w)) := by
  have h1 : selectsAddi m w = true → opcodeOf w = 0x13#7 := by simp [selectsAddi]; tauto
  have h2 : selectsAdd m w = true → opcodeOf w = 0x33#7 := by simp [selectsAdd]; tauto
  have h3 : selectsStub m 0x37#7 w = true → opcodeOf w = 0x37#7 := by simp [selectsStub]
  have h4 : selectsStub m 0x36#7 w = true → opcodeOf w = 0x36#7 := by simp [selectsStub]
  unfold decode
  split_ifs with a b c d
  · have n2 : selectsAdd m w ≠ true := fun h => absurd ((h1 a).symm.trans (h2 h)) (by decide)
    have n3 : selectsStub m 0x37#7 w ≠ true := fun h => absurd ((h1 a).symm.trans (h3 h)) (by decide)
    have n4 : selectsStub m 0x36#7 w ≠ true := fun h => absurd ((h1 a).symm.trans (h4 h)) (by decide)
    simp [a, n2, n3, n4, eq_comm]
  · have n3 : selectsStub m 0x37#7 w ≠ true := fun h => absurd ((h2 b).symm.trans (h3 h)) (by decide)
    have n4 : selectsStub m 0x36#7 w ≠ true := fun h => absurd ((h2 b).symm.trans (h4 h)) (by decide)
    simp [a, b, n3, n4, eq_comm]
  · have n4 : selectsStub m 0x36#7 w ≠ true := fun h => absurd ((h3 c).symm.trans (h4 h)) (by decide)
    simp [a, b, c, n4, eq_comm]
  · simp [a, b, c, d, eq_comm]
  · simp [a, b, c, d]

/-- A word is UNKNOWN exactly if nothing selects it (R111). -/
theorem decode_unknown {m : DispatchMode} {w : InstrWord} :
    decode m w = .unknown ↔
      selectsAddi m w = false ∧ selectsAdd m w = false ∧ selectsStub m 0x37#7 w = false ∧
        selectsStub m 0x36#7 w = false := by
  unfold decode
  split_ifs <;> simp_all

/-- The bytes of a word give the word back (R100). -/
@[simp] theorem wordOfBytes_extract (w : InstrWord) :
    wordOfBytes (w.extractLsb' 0 8) (w.extractLsb' 8 8) (w.extractLsb' 16 8) (w.extractLsb' 24 8) = w := by
  refine BitVec.eq_of_getLsbD_eq fun j hj => ?_
  simp only [wordOfBytes, BitVec.getLsbD_append, BitVec.getLsbD_extractLsb']
  split_ifs <;> (rw [decide_eq_true (by omega), Bool.true_and]; congr 1; omega)

/-- Decoding a word's four bytes is decoding the word. -/
theorem decodeBytes_bytesOfWord (m : DispatchMode) (w : InstrWord) (rest : List Byte) :
    decodeBytes m (bytesOfWord w ++ rest) =
      match decode m w with
      | .instr i => .ok (i, rest)
      | .unknown => .error (.unknownInstruction w) := by
  cases h : decode m w <;> simp [bytesOfWord, decodeBytes, h]

end Sys2Proof
end

