-- ==== Sys2Proof/Laws/Memory.lean ====
section
/-!
SUPPORT. The bytes of a memory context: the read-after-write laws (spec/20_memory.md R77), that every operation keeps
the canonical form, and that contexts in canonical form that read alike are equal.
-/

namespace Sys2Proof

@[simp] theorem Memory.read_nil (o : Nat) : Memory.read [] o = Memory.unlisted := rfl

/-- The canonical form of a list with a first cell. -/
theorem Memory.wf_cons {k : Nat} {b : Byte} {m : Memory} :
    Memory.wf ((k, b) :: m) = true ↔ (∀ c ∈ m, k < c.1) ∧ b ≠ Memory.unlisted ∧ Memory.wf m = true := by
  simp only [Memory.wf, List.pairwise_cons, List.all_cons, Bool.and_eq_true, decide_eq_true_eq, bne_iff_ne]
  tauto

/-- An offset below every listed one reads as unlisted. -/
theorem Memory.read_below {m : Memory} {o : Nat} (h : ∀ c ∈ m, o < c.1) : m.read o = Memory.unlisted := by
  induction m with
  | nil => rfl
  | cons c m ih =>
    have hc := h c (by simp)
    simp only [Memory.read]
    rw [if_neg (by omega)]
    exact ih fun d hd => h d (by simp [hd])

theorem Memory.read_cons_same {m : Memory} {o : Nat} (b : Byte) (h : ∀ c ∈ m, o < c.1) :
    (Memory.cons o b m).read o = b := by
  unfold Memory.cons
  split
  · rename_i hb; rw [hb, Memory.read_below h]
  · simp [Memory.read]

theorem Memory.read_cons_other {m : Memory} {o p : Nat} (b : Byte) (h : p ≠ o) :
    (Memory.cons o b m).read p = m.read p := by
  unfold Memory.cons
  split
  · rfl
  · simp [Memory.read, h.symm]

theorem Memory.mem_cons {m : Memory} {o : Nat} {b : Byte} {c : Host.Cell} (h : c ∈ Memory.cons o b m) :
    c.1 = o ∨ c ∈ m := by
  unfold Memory.cons at h
  split at h
  · exact .inr h
  · rcases List.mem_cons.mp h with rfl | h
    · exact .inl rfl
    · exact .inr h

/-- Every cell of a write is the written one or was there before. -/
theorem Memory.mem_write {m : Memory} {o : Nat} {b : Byte} {c : Host.Cell} (h : c ∈ m.write o b) :
    c.1 = o ∨ c ∈ m := by
  induction m with
  | nil => exact Memory.mem_cons h
  | cons d m ih =>
    simp only [Memory.write] at h
    split_ifs at h
    · exact Memory.mem_cons h
    · exact (Memory.mem_cons h).imp_right (List.mem_cons_of_mem _)
    · rcases List.mem_cons.mp h with rfl | h
      · exact .inr (by simp)
      · exact (ih h).imp_right (List.mem_cons_of_mem _)

/-- Read after write, the same offset. -/
theorem Memory.read_write_same {m : Memory} (hm : m.wf = true) (o : Nat) (b : Byte) : (m.write o b).read o = b := by
  induction m with
  | nil => exact Memory.read_cons_same b (by simp)
  | cons c m ih =>
    obtain ⟨k, v⟩ := c
    obtain ⟨hlt, -, hm⟩ := Memory.wf_cons.mp hm
    simp only [Memory.write]
    split_ifs with h1 h2
    · refine Memory.read_cons_same b fun d hd => ?_
      rcases List.mem_cons.mp hd with rfl | hd
      · exact h1
      · exact h1.trans (hlt d hd)
    · subst h2; exact Memory.read_cons_same b hlt
    · simp [Memory.read, ih hm, Ne.symm h2]

/-- Read after write, another offset. -/
theorem Memory.read_write_other (m : Memory) {o p : Nat} (b : Byte) (h : p ≠ o) :
    (m.write o b).read p = m.read p := by
  induction m with
  | nil => exact Memory.read_cons_other b h
  | cons c m ih =>
    obtain ⟨k, v⟩ := c
    simp only [Memory.write]
    split_ifs with h1 h2
    · exact Memory.read_cons_other b h
    · subst h2; rw [Memory.read_cons_other b h]; simp [Memory.read, Ne.symm h]
    · simp [Memory.read, ih]

/-- A write keeps the canonical form. -/
theorem Memory.write_wf {m : Memory} (hm : m.wf = true) (o : Nat) (b : Byte) : (m.write o b).wf = true := by
  induction m with
  | nil =>
    simp only [Memory.write, Memory.cons]
    split
    · rfl
    · rename_i h; exact Memory.wf_cons.mpr ⟨by simp, h, rfl⟩
  | cons c m ih =>
    obtain ⟨k, v⟩ := c
    obtain ⟨hlt, hv, hm'⟩ := Memory.wf_cons.mp hm
    simp only [Memory.write, Memory.cons]
    split_ifs with h1 h2 h2 h3
    · exact hm
    · refine Memory.wf_cons.mpr ⟨fun d hd => ?_, h2, hm⟩
      rcases List.mem_cons.mp hd with rfl | hd
      · exact h1
      · exact h1.trans (hlt d hd)
    · exact hm'
    · subst h2; exact Memory.wf_cons.mpr ⟨hlt, h3, hm'⟩
    · refine Memory.wf_cons.mpr ⟨fun d hd => ?_, hv, ih hm'⟩
      rcases Memory.mem_write hd with h | h
      · omega
      · exact hlt d h

/-- Placing a list of bytes keeps the canonical form. -/
theorem Memory.writeList_wf {m : Memory} (hm : m.wf = true) (o : Nat) (bs : List Byte) :
    (m.writeList o bs).wf = true := by
  induction bs generalizing m o with
  | nil => exact hm
  | cons b bs ih => exact ih (Memory.write_wf hm o b) (o + 1)

theorem Memory.ofBytes_wf (bs : List Byte) : (Memory.ofBytes bs).wf = true :=
  Memory.writeList_wf (m := []) rfl 0 bs

/-- Every cell after placing bytes lies among the placed ones or was there before. -/
theorem Memory.mem_writeList {m : Memory} {o : Nat} {bs : List Byte} {c : Host.Cell} (h : c ∈ m.writeList o bs) :
    (o ≤ c.1 ∧ c.1 < o + bs.length) ∨ c ∈ m := by
  induction bs generalizing m o with
  | nil => exact .inr h
  | cons b bs ih =>
    rcases ih h with h | h
    · simp only [List.length_cons]; omega
    · rcases Memory.mem_write h with h | h
      · simp only [List.length_cons]; omega
      · exact .inr h

/-- What an offset reads as after a list of bytes is placed. -/
theorem Memory.read_writeList {m : Memory} (hm : m.wf = true) (o : Nat) (bs : List Byte) (p : Nat) :
    (m.writeList o bs).read p = if h : o ≤ p ∧ p < o + bs.length then bs[p - o] else m.read p := by
  induction bs generalizing m o with
  | nil =>
    rw [dif_neg (by simp only [List.length_nil]; omega)]; rfl
  | cons b bs ih =>
    simp only [Memory.writeList, List.length_cons]
    rw [ih (Memory.write_wf hm o b) (o + 1)]
    by_cases h : p = o
    · subst h
      rw [dif_neg (by omega), dif_pos (by omega), Memory.read_write_same hm]
      simp
    · rw [Memory.read_write_other m b h]
      by_cases h1 : o + 1 ≤ p ∧ p < o + 1 + bs.length
      · rw [dif_pos h1, dif_pos (by omega)]
        simp only [show p - o = (p - (o + 1)) + 1 by omega, List.getElem_cons_succ]
      · rw [dif_neg h1, dif_neg (by omega)]

/-- Two memories in canonical form that read alike everywhere are equal. -/
theorem Memory.ext_of_read {m n : Memory} (hm : m.wf = true) (hn : n.wf = true) (h : ∀ o, m.read o = n.read o) :
    m = n := by
  induction m generalizing n with
  | nil =>
    cases n with
    | nil => rfl
    | cons c n =>
      obtain ⟨k, v⟩ := c
      have := h k
      simp only [Memory.read, if_true] at this
      exact absurd this.symm (Memory.wf_cons.mp hn).2.1
  | cons c m ih =>
    obtain ⟨k, v⟩ := c
    obtain ⟨hlt, hv, hm'⟩ := Memory.wf_cons.mp hm
    cases n with
    | nil =>
      have := h k
      simp only [Memory.read, if_true] at this
      exact absurd this hv
    | cons d n =>
      obtain ⟨l, w⟩ := d
      obtain ⟨hlt', hw, hn'⟩ := Memory.wf_cons.mp hn
      have hkl : k = l := by
        by_contra hne
        rcases Nat.lt_or_gt_of_ne hne with hk | hk
        · have := h k
          rw [Memory.read_below (m := (l, w) :: n)] at this
          · simp [Memory.read] at this; exact hv this
          · intro d hd
            rcases List.mem_cons.mp hd with rfl | hd
            · exact hk
            · exact hk.trans (hlt' d hd)
        · have := h l
          rw [Memory.read_below (m := (k, v) :: m)] at this
          · simp [Memory.read] at this; exact hw this.symm
          · intro d hd
            rcases List.mem_cons.mp hd with rfl | hd
            · exact hk
            · exact hk.trans (hlt d hd)
      subst hkl
      have hvw : v = w := by simpa [Memory.read] using h k
      subst hvw
      rw [ih hm' hn']
      intro o
      by_cases ho : k = o
      · subst ho; rw [Memory.read_below hlt, Memory.read_below hlt']
      · simpa [Memory.read, ho] using h o

/-! ### Contexts and regions -/

/-- A store keeps a context's kind. -/
@[simp] theorem Context.store_sameKind (c : Context) (o : Word) (b : Byte) (d : Context) :
    (c.store o b).sameKind d = c.sameKind d := by
  cases c <;> cases d <;> rfl

@[simp] theorem Context.sameKind_refl (c : Context) : c.sameKind c = true := by
  cases c <;> simp [Context.sameKind]

/-- A store at an offset inside the region keeps its context in canonical form. -/
theorem Context.store_wf {c : Context} {length o : Word} (b : Byte) (hc : c.wf length = true)
    (ho : o.toNat < length.toNat) : (c.store o b).wf length = true := by
  cases c with
  | device id regs => rfl
  | bytes m =>
    simp only [Context.store, Context.wf, Bool.and_eq_true, List.all_eq_true, decide_eq_true_eq] at hc ⊢
    refine ⟨Memory.write_wf hc.1 _ b, fun c hcm => ?_⟩
    rcases Memory.mem_write hcm with h | h
    · omega
    · exact hc.2 c h

/-- A memory context's store is seen at its own offset, and nowhere else. -/
theorem Context.load_store_bytes {m : Memory} (hm : m.wf = true) (o p : Word) (b : Byte) :
    ((Context.bytes m).store o b).load p = if p = o then b else (Context.bytes m).load p := by
  simp only [Context.store, Context.load]
  split
  · rename_i h; rw [h, Memory.read_write_same hm]
  · rename_i h; exact Memory.read_write_other m b (fun he => h (BitVec.eq_of_toNat_eq he))

@[simp] theorem Region.storeAt_base (r : Region) (a : Word) (b : Byte) : (r.storeAt a b).base = r.base := rfl
@[simp] theorem Region.storeAt_length (r : Region) (a : Word) (b : Byte) : (r.storeAt a b).length = r.length := rfl
@[simp] theorem Region.storeAt_canLoad (r : Region) (a : Word) (b : Byte) : (r.storeAt a b).canLoad = r.canLoad := rfl
@[simp] theorem Region.storeAt_canStore (r : Region) (a : Word) (b : Byte) : (r.storeAt a b).canStore = r.canStore :=
  rfl
@[simp] theorem Region.storeAt_ctx (r : Region) (a : Word) (b : Byte) :
    (r.storeAt a b).ctx = r.ctx.store (r.offset a) b := rfl
@[simp] theorem Region.storeAt_offset (r : Region) (a : Word) (b : Byte) (c : Word) :
    (r.storeAt a b).offset c = r.offset c := rfl
@[simp] theorem Region.storeAt_serves (r : Region) (a : Word) (b : Byte) (cap : Capability) (c : Word) :
    (r.storeAt a b).serves cap c = r.serves cap c := by
  cases cap <;> rfl

/-- The offset of a covered address lies inside the region. -/
theorem Region.offset_lt {r : Region} {a : Word} (h : r.covers a = true) : (r.offset a).toNat < r.length.toNat := by
  simp only [Region.covers, decide_eq_true_eq] at h
  simp only [Region.offset]
  rw [BitVec.toNat_sub_of_le (BitVec.le_def.mpr h.1)]
  omega

/-- A store at an address the region covers keeps it well-formed. -/
theorem Region.storeAt_wf {r : Region} {a : Word} (b : Byte) (hr : r.wf = true) (h : r.covers a = true) :
    (r.storeAt a b).wf = true := by
  simp only [Region.wf, Bool.and_eq_true] at hr ⊢
  exact ⟨hr.1, Context.store_wf b hr.2 (Region.offset_lt h)⟩

/-- The last byte of the address space is in no region that satisfies 20_memory.md R61. -/
theorem Region.not_covers_top {r : Region} (h : r.fits = true) : r.covers (BitVec.allOnes 64) = false := by
  simp only [Region.fits, decide_eq_true_eq] at h
  simp only [Region.covers, decide_eq_false_iff_not, BitVec.toNat_allOnes]
  omega

end Sys2Proof
end

