-- ==== Sys2Proof/Laws/PerInstr.lean ====
section
/-!
SUPPORT. A law stated instruction by instruction: the word of an instruction has the fixed bits of its row of
spec/opcode_table.json (spec/30_encoding.md R108, R110: `w & mask = match`).
-/

namespace Sys2Proof.Laws.FixedBits

/-- The encoding of the instruction has its row's fixed bits. -/
def Statement (i : Instr) : Prop := encode i &&& i.tableMask = i.tableMatch

theorem addi (rd rs1 : Reg) (imm : Word) : Statement (.addi rd rs1 imm) :=
  addi_mask.mpr ⟨opcodeOf_encodeI .., funct3Of_encodeI ..⟩

theorem add (rd rs1 rs2 : Reg) : Statement (.add rd rs1 rs2) :=
  add_mask.mpr ⟨opcodeOf_encodeR .., funct3Of_encodeR .., funct7Of_encodeR ..⟩

theorem stub37 (ignored : BitVec 25) : Statement (.stub37 ignored) :=
  opcode_mask.mpr (opcodeOf_append ..)

theorem stub36 (ignored : BitVec 25) : Statement (.stub36 ignored) :=
  opcode_mask.mpr (opcodeOf_append ..)

end Sys2Proof.Laws.FixedBits
end

