-- ==== Sys2Proof/Laws/Router.lean ====
section
/-!
SUPPORT. The memory bus router: what a resolution answers (spec/20_memory.md R64), what a load and a store can do (R66,
R68 to R70), and the bytes of composed values.
-/

namespace Sys2Proof.Machine

/-! ### Resolution -/

theorem resolveFrom_eq_some {cap : Capability} {a : Word} {i : Nat} {rs : List Region} {h : Hit} :
    resolveFrom cap a i rs = some h ↔
      i ≤ h.index ∧ rs[h.index - i]? = some h.region ∧ h.region.serves cap a = true ∧
        ∀ j, i ≤ j → j < h.index → ∀ r, rs[j - i]? = some r → r.serves cap a = false := by
  induction rs generalizing i with
  | nil => simp [resolveFrom]
  | cons r rs ih =>
    simp only [resolveFrom]
    split_ifs with hs
    · obtain ⟨k, q⟩ := h
      simp only [Option.some.injEq, Hit.mk.injEq]
      constructor
      · rintro ⟨rfl, rfl⟩
        exact ⟨le_refl _, by simp, hs, fun j h1 h2 => by omega⟩
      · rintro ⟨hle, hget, -, hall⟩
        rcases Nat.lt_or_ge i k with hlt | hge
        · have := hall i (le_refl _) hlt r (by simp)
          simp [hs] at this
        · have : k = i := by omega
          subst this
          simpa using hget
    · rw [ih]
      constructor
      · rintro ⟨hle, hget, hsv, hall⟩
        refine ⟨by omega, ?_, hsv, fun j h1 h2 q hq => ?_⟩
        · rw [show h.index - i = (h.index - (i + 1)) + 1 by omega]; simpa using hget
        · rcases Nat.eq_or_lt_of_le h1 with rfl | hlt
          · simp only [Nat.sub_self, List.getElem?_cons_zero, Option.some.injEq] at hq
            subst hq; simpa using hs
          · refine hall j hlt h2 q ?_
            rw [show j - i = (j - (i + 1)) + 1 by omega] at hq; simpa using hq
      · rintro ⟨hle, hget, hsv, hall⟩
        have hne : h.index ≠ i := by
          intro he
          rw [he, Nat.sub_self, List.getElem?_cons_zero, Option.some.injEq] at hget
          rw [← hget] at hsv; exact hs hsv
        refine ⟨by omega, ?_, hsv, fun j h1 h2 q hq => hall j (by omega) h2 q ?_⟩
        · rw [show h.index - i = (h.index - (i + 1)) + 1 by omega] at hget; simpa using hget
        · rw [show j - i = (j - (i + 1)) + 1 by omega]; simpa using hq

/-- `Resolve(a, cap)` is the first region, in order, that serves the byte (R64). -/
theorem resolve_eq_some {rs : List Region} {cap : Capability} {a : Word} {h : Hit} :
    resolve rs cap a = some h ↔
      rs[h.index]? = some h.region ∧ h.region.serves cap a = true ∧
        ∀ j, j < h.index → ∀ r, rs[j]? = some r → r.serves cap a = false := by
  simp [resolve, resolveFrom_eq_some]

theorem resolveFrom_eq_none {cap : Capability} {a : Word} {i : Nat} {rs : List Region} :
    resolveFrom cap a i rs = none ↔ ∀ r ∈ rs, r.serves cap a = false := by
  induction rs generalizing i with
  | nil => simp [resolveFrom]
  | cons r rs ih =>
    simp only [resolveFrom]
    split_ifs with hs
    · simp [hs]
    · simp [ih, hs]

/-- A byte resolves to nothing exactly if no region serves it (R64, R70). -/
theorem resolve_eq_none {rs : List Region} {cap : Capability} {a : Word} :
    resolve rs cap a = none ↔ ∀ r ∈ rs, r.serves cap a = false := resolveFrom_eq_none

/-- A resolved region covers the byte and has the capability. -/
theorem resolve_serves {rs : List Region} {cap : Capability} {a : Word} {h : Hit} (hr : resolve rs cap a = some h) :
    h.region.serves cap a = true := (resolve_eq_some.mp hr).2.1

theorem resolve_mem {rs : List Region} {cap : Capability} {a : Word} {h : Hit} (hr : resolve rs cap a = some h) :
    h.region ∈ rs := List.mem_of_getElem? (resolve_eq_some.mp hr).1

/-! ### The bytes of an access -/

@[simp] theorem byteAddrs_length (a : Word) (n : Nat) : (byteAddrs a n).length = n := by simp [byteAddrs]

@[simp] theorem byteAddrs_getElem (a : Word) (n i : Nat) (h : i < (byteAddrs a n).length) :
    (byteAddrs a n)[i] = a + BitVec.ofNat 64 i := by simp [byteAddrs]

/-- The byte addresses of an access differ. -/
theorem byteAddrs_nodup (a : Word) {n : Nat} (hn : n ≤ 2 ^ 64) : (byteAddrs a n).Nodup := by
  refine List.Nodup.map_on (fun i hi j hj h => ?_) List.nodup_range
  simp only [List.mem_range] at hi hj
  have := congrArg BitVec.toNat (add_left_cancel h)
  simp only [BitVec.toNat_ofNat] at this
  rwa [Nat.mod_eq_of_lt (by omega), Nat.mod_eq_of_lt (by omega)] at this

/-- A successful resolution of all bytes: each byte of the access, in order, with what it resolves to. -/
theorem resolveAll_ok {rs : List Region} {cap : Capability} {kind : AccessKind} {as : List Word}
    {hs : List (Word × Hit)} :
    resolveAll rs cap kind as = .ok hs ↔ hs.map (·.1) = as ∧ ∀ p ∈ hs, resolve rs cap p.1 = some p.2 := by
  induction as generalizing hs with
  | nil => cases hs <;> simp [resolveAll]
  | cons a as ih =>
    simp only [resolveAll]
    cases hr : resolve rs cap a with
    | none =>
      simp only [reduceCtorEq, false_iff, not_and]
      intro hm hall
      cases hs with
      | nil => simp at hm
      | cons p hs =>
        simp only [List.map_cons, List.cons.injEq] at hm
        have := hall p (by simp)
        rw [hm.1, hr] at this
        exact absurd this (by simp)
    | some h =>
      cases hrest : resolveAll rs cap kind as with
      | error e =>
        simp only [reduceCtorEq, false_iff, not_and]
        intro hm hall
        cases hs with
        | nil => simp at hm
        | cons p hs =>
          simp only [List.map_cons, List.cons.injEq] at hm
          have := (ih (hs := hs)).mpr ⟨hm.2, fun q hq => hall q (by simp [hq])⟩
          rw [hrest] at this
          exact absurd this (by simp)
      | ok hs' =>
        have hok := ih.mp hrest
        simp only [Except.ok.injEq]
        constructor
        · rintro rfl
          refine ⟨by simp [hok.1], fun p hp => ?_⟩
          rcases List.mem_cons.mp hp with rfl | hp
          · exact hr
          · exact hok.2 p hp
        · rintro ⟨hm, hall⟩
          cases hs with
          | nil => simp at hm
          | cons p hs =>
            simp only [List.map_cons, List.cons.injEq] at hm
            have h1 := hall p (by simp)
            rw [hm.1, hr, Option.some.injEq] at h1
            have h2 := (ih (hs := hs)).mpr ⟨hm.2, fun q hq => hall q (by simp [hq])⟩
            rw [hrest, Except.ok.injEq] at h2
            rw [h2, ← hm.1, h1]

/-- A failed resolution: the reason names the lowest-index byte that no region serves (R70). -/
theorem resolveAll_error {rs : List Region} {cap : Capability} {kind : AccessKind} {as : List Word}
    {e : TrapReason} :
    resolveAll rs cap kind as = .error e ↔
      ∃ (i : Nat) (a : Word), as[i]? = some a ∧ resolve rs cap a = none ∧ e = .busMiss kind a ∧
        ∀ j, j < i → ∀ b, as[j]? = some b → resolve rs cap b ≠ none := by
  induction as with
  | nil => simp [resolveAll]
  | cons a as ih =>
    simp only [resolveAll]
    cases hr : resolve rs cap a with
    | none =>
      simp only [Except.error.injEq]
      constructor
      · rintro rfl
        exact ⟨0, a, by simp, hr, rfl, fun j hj => by omega⟩
      · rintro ⟨i, b, hb, hn, rfl, hall⟩
        cases i with
        | zero => simp only [List.getElem?_cons_zero, Option.some.injEq] at hb; rw [hb]
        | succ i => exact absurd hr (hall 0 (by omega) a (by simp))
    | some h =>
      have hmatch : (match resolveAll rs cap kind as with
          | .ok hs => (.ok ((a, h) :: hs) : Except TrapReason _)
          | .error e => .error e) = .error e ↔ resolveAll rs cap kind as = .error e := by
        cases resolveAll rs cap kind as <;> simp
      refine hmatch.trans (ih.trans ?_)
      constructor
      · rintro ⟨i, b, hb, hn, he, hall⟩
        refine ⟨i + 1, b, by simpa using hb, hn, he, fun j hj c hc => ?_⟩
        cases j with
        | zero => simp only [List.getElem?_cons_zero, Option.some.injEq] at hc; rw [← hc, hr]; simp
        | succ j => exact hall j (by omega) c (by simpa using hc)
      · rintro ⟨i, b, hb, hn, he, hall⟩
        cases i with
        | zero =>
          simp only [List.getElem?_cons_zero, Option.some.injEq] at hb
          rw [← hb, hr] at hn; exact absurd hn (by simp)
        | succ i =>
          exact ⟨i, b, by simpa using hb, hn, he, fun j hj c hc => hall (j + 1) (by omega) c (by simpa using hc)⟩

/-- If every byte of an access is served, the access resolves. -/
theorem resolveAll_total {rs : List Region} {cap : Capability} {kind : AccessKind} {as : List Word}
    (h : ∀ a ∈ as, resolve rs cap a ≠ none) : ∃ hs, resolveAll rs cap kind as = .ok hs := by
  cases hr : resolveAll rs cap kind as with
  | ok hs => exact ⟨hs, rfl⟩
  | error e =>
    obtain ⟨i, a, ha, hn, -, -⟩ := resolveAll_error.mp hr
    exact absurd hn (h a (List.mem_of_getElem? ha))

/-! ### Values and bytes -/

/-- Bit `j` of a composed value is bit `j % 8` of byte `j / 8`. -/
theorem composeLE_getLsbD (bs : List Byte) (j : Nat) (hj : j < 64) :
    (composeLE bs).getLsbD j = (bs.getD (j / 8) 0).getLsbD (j % 8) := by
  induction bs generalizing j with
  | nil => simp [composeLE]
  | cons b bs ih =>
    have hdisj : b.setWidth 64 &&& (composeLE bs <<< 8) = 0#64 := by
      ext i hi
      simp only [BitVec.getElem_and, BitVec.getElem_setWidth, BitVec.getElem_shiftLeft, BitVec.getElem_zero]
      by_cases h8 : i < 8
      · simp [h8]
      · simp [BitVec.getLsbD_of_ge b i (by omega)]
    rw [composeLE, BitVec.add_eq_or_of_and_eq_zero _ _ hdisj]
    simp only [BitVec.getLsbD_or, BitVec.getLsbD_setWidth, BitVec.getLsbD_shiftLeft]
    by_cases h8 : j < 8
    · simp [h8, hj, Nat.div_eq_of_lt h8, Nat.mod_eq_of_lt h8]
    · rw [BitVec.getLsbD_of_ge b j (by omega), ih (j - 8) (by omega)]
      obtain ⟨k, rfl⟩ : ∃ k, j = k + 8 := ⟨j - 8, by omega⟩
      simp [hj]

/-- Bit `j` of byte `i` of a value. -/
theorem byteOf_getLsbD (v : Word) (i j : Nat) (hj : j < 8) : (byteOf v i).getLsbD j = v.getLsbD (8 * i + j) := by
  simp [byteOf, hj]

/-- Byte `i` of a composed value is the byte that was put there. -/
theorem byteOf_composeLE (bs : List Byte) (i : Nat) (hi : i < 8) : byteOf (composeLE bs) i = bs.getD i 0 := by
  apply BitVec.eq_of_getLsbD_eq
  intro j hj
  rw [byteOf_getLsbD _ _ _ hj, composeLE_getLsbD _ _ (by omega)]
  rw [show (8 * i + j) / 8 = i by omega, show (8 * i + j) % 8 = j by omega]

/-- A value is the composition of its own bytes, cut to as many as there are. -/
theorem composeLE_bytesLE (v : Word) (n : Nat) : composeLE (bytesLE v n) = (v.setWidth (8 * n)).setWidth 64 := by
  apply BitVec.eq_of_getLsbD_eq
  intro j hj
  rw [composeLE_getLsbD _ _ hj]
  simp only [BitVec.getLsbD_setWidth, hj, decide_true, Bool.true_and]
  by_cases hn : j / 8 < n
  · have : (bytesLE v n).getD (j / 8) 0 = byteOf v (j / 8) := by simp [bytesLE, List.getD, hn]
    rw [this, byteOf_getLsbD _ _ _ (by omega), show 8 * (j / 8) + j % 8 = j by omega,
      decide_eq_true (show j < 8 * n by omega), Bool.true_and]
  · have : (bytesLE v n).getD (j / 8) 0 = 0 := by
      rw [List.getD_eq_default]; simpa [bytesLE] using Nat.le_of_not_lt hn
    rw [this, decide_eq_false (show ¬ j < 8 * n by omega)]; simp

@[simp] theorem bytesLE_length (v : Word) (n : Nat) : (bytesLE v n).length = n := by simp [bytesLE]

/-- The bits of a composed value above its bytes are 0. -/
theorem composeLE_high (bs : List Byte) (j : Nat) (hj : 8 * bs.length ≤ j) : (composeLE bs).getLsbD j = false := by
  by_cases h : j < 64
  · rw [composeLE_getLsbD _ _ h, List.getD_eq_default _ _ (by omega)]; simp
  · exact BitVec.getLsbD_of_ge _ _ (by omega)

/-- A composed value is below 2 to the number of its bits (R66: "bits [63 : sizeBits] are 0"). -/
theorem composeLE_lt (bs : List Byte) : (composeLE bs).toNat < 2 ^ (8 * bs.length) :=
  Nat.lt_pow_two_of_testBit _ fun j hj => composeLE_high bs j hj

/-! ### What a load can answer -/

/-- Everything a router load can do (R66, R69, R70). -/
theorem routerLoad_ok {rs : List Region} {kind : AccessKind} {a : Word} {n : Nat} {v : Word} :
    routerLoad rs kind a n = .ok v ↔
      supportedWidth n = true ∧ ∃ hits, resolveAll rs .load kind (byteAddrs a (n / 8)) = .ok hits ∧
        v = composeLE (hits.map (fun p => p.2.region.loadAt p.1)) := by
  unfold routerLoad
  split_ifs with h
  · cases hr : resolveAll rs .load kind (byteAddrs a (n / 8)) with
    | ok hits => simp [h, eq_comm]
    | error e => simp
  · simp [h]

theorem routerLoad_error {rs : List Region} {kind : AccessKind} {a : Word} {n : Nat} {e : TrapReason} :
    routerLoad rs kind a n = .error e ↔
      (supportedWidth n = false ∧ e = .unsupportedAccessWidth n) ∨
        (supportedWidth n = true ∧ resolveAll rs .load kind (byteAddrs a (n / 8)) = .error e) := by
  unfold routerLoad
  split_ifs with h
  · cases hr : resolveAll rs .load kind (byteAddrs a (n / 8)) with
    | ok hits => simp [h]
    | error e' => simp [h]
  · simp [h, eq_comm]

/-- Everything a router store can do (R68, R69, R70). -/
theorem routerStore_ok {rs : List Region} {a v : Word} {n : Nat} {rs' : List Region} :
    routerStore rs a v n = .ok rs' ↔
      supportedWidth n = true ∧ ∃ hits, resolveAll rs .store .store (byteAddrs a (n / 8)) = .ok hits ∧
        rs' = storeBytes rs (hits.zip (bytesLE v (n / 8))) := by
  unfold routerStore
  split_ifs with h
  · cases hr : resolveAll rs .store .store (byteAddrs a (n / 8)) with
    | ok hits => simp [h, eq_comm]
    | error e => simp
  · simp [h]

theorem routerStore_error {rs : List Region} {a v : Word} {n : Nat} {e : TrapReason} :
    routerStore rs a v n = .error e ↔
      (supportedWidth n = false ∧ e = .unsupportedAccessWidth n) ∨
        (supportedWidth n = true ∧ resolveAll rs .store .store (byteAddrs a (n / 8)) = .error e) := by
  unfold routerStore
  split_ifs with h
  · cases hr : resolveAll rs .store .store (byteAddrs a (n / 8)) with
    | ok hits => simp [h]
    | error e' => simp [h]
  · simp [h, eq_comm]

/-- The four sizes. -/
theorem supportedWidth_iff {n : Nat} : supportedWidth n = true ↔ n = 8 ∨ n = 16 ∨ n = 32 ∨ n = 64 := by
  simp [supportedWidth, or_assoc]

/-! ### What a store does to the regions -/

/-- The writes that land in the region of index `k`. -/
def writesTo (k : Nat) (ws : List ((Word × Hit) × Byte)) : List (Word × Byte) :=
  (ws.filter (fun w => w.1.2.index == k)).map (fun w => (w.1.1, w.2))

/-- A region after a list of byte stores. -/
def storeInto (r : Region) (ws : List (Word × Byte)) : Region := ws.foldl (fun r w => r.storeAt w.1 w.2) r

/-- Each region after a store: only the writes that resolved to it reach it, in order. -/
theorem storeBytes_getElem? (rs : List Region) (ws : List ((Word × Hit) × Byte)) (k : Nat) :
    (storeBytes rs ws)[k]? = rs[k]?.map (fun r => storeInto r (writesTo k ws)) := by
  induction ws generalizing rs with
  | nil => simp [storeBytes, writesTo, storeInto]
  | cons w ws ih =>
    obtain ⟨⟨a, h⟩, b⟩ := w
    simp only [storeBytes]
    rw [ih, List.getElem?_modify]
    by_cases hk : h.index = k
    · simp [hk, writesTo, storeInto, Option.map_map, Function.comp_def]
    · simp [hk, writesTo, storeInto]

@[simp] theorem storeBytes_length (rs : List Region) (ws : List ((Word × Hit) × Byte)) :
    (storeBytes rs ws).length = rs.length := by
  induction ws generalizing rs with
  | nil => rfl
  | cons w ws ih => simp [storeBytes, ih]

theorem storeInto_frame (r : Region) (ws : List (Word × Byte)) :
    (storeInto r ws).base = r.base ∧ (storeInto r ws).length = r.length ∧ (storeInto r ws).canLoad = r.canLoad ∧
      (storeInto r ws).canStore = r.canStore := by
  induction ws generalizing r with
  | nil => simp [storeInto]
  | cons w ws ih => simpa [storeInto] using ih (r.storeAt w.1 w.2)

@[simp] theorem storeInto_serves (r : Region) (ws : List (Word × Byte)) (cap : Capability) (a : Word) :
    (storeInto r ws).serves cap a = r.serves cap a := by
  induction ws generalizing r with
  | nil => rfl
  | cons w ws ih => simpa [storeInto] using ih (r.storeAt w.1 w.2)

@[simp] theorem storeInto_offset (r : Region) (ws : List (Word × Byte)) (a : Word) :
    (storeInto r ws).offset a = r.offset a := by
  simp [Region.offset, (storeInto_frame r ws).1]

/-- A store changes no resolution but the contexts of the regions resolved to. -/
theorem resolve_storeBytes (rs : List Region) (ws : List ((Word × Hit) × Byte)) (cap : Capability) (a : Word) :
    resolve (storeBytes rs ws) cap a =
      (resolve rs cap a).map (fun h => ⟨h.index, storeInto h.region (writesTo h.index ws)⟩) := by
  cases hr : resolve rs cap a with
  | none =>
    rw [resolve_eq_none] at hr
    simp only [Option.map_none, resolve_eq_none]
    intro r hmem
    obtain ⟨k, hk⟩ := List.mem_iff_getElem?.mp hmem
    rw [storeBytes_getElem?] at hk
    obtain ⟨q, hq, rfl⟩ := Option.map_eq_some_iff.mp hk
    simpa using hr q (List.mem_of_getElem? hq)
  | some h =>
    obtain ⟨h1, h2, h3⟩ := resolve_eq_some.mp hr
    simp only [Option.map_some]
    refine resolve_eq_some.mpr ⟨by simp [storeBytes_getElem?, h1], by simpa using h2, fun j hj r hget => ?_⟩
    rw [storeBytes_getElem?] at hget
    obtain ⟨q, hq, rfl⟩ := Option.map_eq_some_iff.mp hget
    simpa using h3 j hj q hq

/-- The regions of a well-formed router stay well-formed under byte stores at addresses they cover. -/
theorem storeInto_wf {r : Region} {ws : List (Word × Byte)} (hr : r.wf = true)
    (h : ∀ w ∈ ws, r.covers w.1 = true) : (storeInto r ws).wf = true := by
  induction ws generalizing r with
  | nil => exact hr
  | cons w ws ih =>
    refine ih (r := r.storeAt w.1 w.2) (Region.storeAt_wf w.2 hr (h w (by simp))) fun v hv => ?_
    exact h v (by simp [hv])

/-- A successful router store keeps every region well-formed and every memory context in canonical form. -/
theorem routerStore_wf {rs rs' : List Region} {a v : Word} {n : Nat} (hrs : ∀ r ∈ rs, r.wf = true)
    (h : routerStore rs a v n = .ok rs') : ∀ r ∈ rs', r.wf = true := by
  obtain ⟨-, hits, hh, rfl⟩ := routerStore_ok.mp h
  intro r hmem
  obtain ⟨k, hk⟩ := List.mem_iff_getElem?.mp hmem
  rw [storeBytes_getElem?] at hk
  obtain ⟨q, hq, rfl⟩ := Option.map_eq_some_iff.mp hk
  refine storeInto_wf (hrs q (List.mem_of_getElem? hq)) fun w hw => ?_
  simp only [writesTo, List.mem_map, List.mem_filter, beq_iff_eq] at hw
  obtain ⟨⟨⟨c, hit⟩, b⟩, ⟨hz, hidx⟩, rfl⟩ := hw
  have hres := (resolveAll_ok.mp hh).2 _ (List.of_mem_zip hz).1
  obtain ⟨h1, h2, -⟩ := resolve_eq_some.mp hres
  simp only at h1 h2 hidx
  rw [hidx, hq, Option.some.injEq] at h1
  subst h1
  simp only [Region.serves, Bool.and_eq_true] at h2
  exact h2.1

end Sys2Proof.Machine
end

