-- ==== Sys2Proof/Laws/State.lean ====
section
/-!
SUPPORT. One lemma per field per update of State, and the register file's read-after-write laws (spec/10_state.md R31,
R32, R33).
-/

namespace Sys2Proof.Machine

@[simp] theorem setPc_x (s : State) (v : Word) : (s.setPc v).x = s.x := rfl
@[simp] theorem setPc_pc (s : State) (v : Word) : (s.setPc v).pc = v := rfl
@[simp] theorem setPc_regions (s : State) (v : Word) : (s.setPc v).regions = s.regions := rfl
@[simp] theorem setPc_settings (s : State) (v : Word) : (s.setPc v).settings = s.settings := rfl

@[simp] theorem advancePc_x (s : State) : s.advancePc.x = s.x := rfl
@[simp] theorem advancePc_pc (s : State) : s.advancePc.pc = s.pc + 4 := rfl
@[simp] theorem advancePc_regions (s : State) : s.advancePc.regions = s.regions := rfl
@[simp] theorem advancePc_settings (s : State) : s.advancePc.settings = s.settings := rfl

@[simp] theorem setRegions_x (s : State) (rs : List Region) : (s.setRegions rs).x = s.x := rfl
@[simp] theorem setRegions_pc (s : State) (rs : List Region) : (s.setRegions rs).pc = s.pc := rfl
@[simp] theorem setRegions_regions (s : State) (rs : List Region) : (s.setRegions rs).regions = rs := rfl
@[simp] theorem setRegions_settings (s : State) (rs : List Region) : (s.setRegions rs).settings = s.settings := rfl

@[simp] theorem writeReg_pc (s : State) (r : Reg) (v : Word) : (s.writeReg r v).pc = s.pc := by
  unfold State.writeReg; split <;> rfl
@[simp] theorem writeReg_regions (s : State) (r : Reg) (v : Word) : (s.writeReg r v).regions = s.regions := by
  unfold State.writeReg; split <;> rfl
@[simp] theorem writeReg_settings (s : State) (r : Reg) (v : Word) : (s.writeReg r v).settings = s.settings := by
  unfold State.writeReg; split <;> rfl
@[simp] theorem writeReg_zero (s : State) (v : Word) : s.writeReg 0 v = s := by
  simp [State.writeReg]
@[simp] theorem enforceZero_eq (s : State) : s.enforceZero = s := writeReg_zero s 0

@[simp] theorem readReg_zero (s : State) : s.readReg 0 = 0 := by simp [State.readReg]
@[simp] theorem readReg_setPc (s : State) (v : Word) (r : Reg) : (s.setPc v).readReg r = s.readReg r := rfl
@[simp] theorem readReg_advancePc (s : State) (r : Reg) : s.advancePc.readReg r = s.readReg r := rfl
@[simp] theorem readReg_setRegions (s : State) (rs : List Region) (r : Reg) :
    (s.setRegions rs).readReg r = s.readReg r := rfl

/-- A read depends on nothing but the register file. -/
theorem readReg_congr {s t : State} (h : s.x = t.x) (r : Reg) : s.readReg r = t.readReg r := by
  simp [State.readReg, h]

/-- Read after write, the same register (R31, R32). -/
theorem readReg_writeReg_same (s : State) (r : Reg) (v : Word) :
    (s.writeReg r v).readReg r = if r = 0 then 0 else v := by
  by_cases h : r = 0
  · simp [h]
  · simp [State.readReg, State.writeReg, h]

/-- Read after write, another register: no two registers share storage (R30). -/
theorem readReg_writeReg_other (s : State) {r q : Reg} (v : Word) (h : q ≠ r) :
    (s.writeReg r v).readReg q = s.readReg q := by
  by_cases hr : r = 0
  · simp [hr]
  by_cases hq : q = 0
  · simp [hq]
  have hne : r.val - 1 ≠ q.val - 1 := by
    have := Fin.val_ne_iff.mpr h
    have := Fin.val_ne_iff.mpr hr
    have := Fin.val_ne_iff.mpr hq
    simp only [Fin.val_zero] at *
    omega
  simp [State.readReg, State.writeReg, hr, hq, Vector.getElem_set_ne, hne]

/-- Every register of a state whose file is all zero reads 0. -/
theorem readReg_of_zero {s : State} (h : s.x = Vector.replicate 31 0) (r : Reg) : s.readReg r = 0 := by
  simp [State.readReg, h]

/-- Two states with the same value in every register have the same file. -/
theorem x_ext {s t : State} (h : ∀ r, s.readReg r = t.readReg r) : s.x = t.x := by
  refine Vector.ext fun i hi => ?_
  have := h ⟨i + 1, by omega⟩
  simpa [State.readReg, Fin.ext_iff] using this

/-- `addInto` writes its sum to `rd` and nothing else (41_integer_alu.md R162, R168). -/
theorem addInto_eq (rd : Reg) (a b : Operand) (s : State) :
    addInto rd a b s = s.writeReg rd (a.value s + b.value s) := rfl

@[simp] theorem operand_reg_value (s : State) (r : Reg) : (Operand.reg r).value s = s.readReg r := rfl
@[simp] theorem operand_imm_value (s : State) (v : Word) : (Operand.imm v).value s = v := rfl

end Sys2Proof.Machine
end

