-- ==== Sys2Proof/Laws/RouterMemory.lean ====
section
/-!
SUPPORT. The memory law of a region (spec/20_memory.md R77) carried through a whole store, and the host's moves.
-/

namespace Sys2Proof

/-- A region of bytes with both capabilities obeys the memory law. -/
theorem Region.isMemory_bytes {r : Region} {m : Memory} (hc : r.ctx = .bytes m) (hl : r.canLoad = true)
    (hs : r.canStore = true) : r.IsMemory := by
  refine ⟨hl, hs, fun c o b hk hw _ => ?_⟩
  cases c with
  | device id regs => rw [hc] at hk; simp [Context.sameKind] at hk
  | bytes n =>
    simp only [Context.wf, Bool.and_eq_true] at hw
    refine ⟨?_, fun o' ho => ?_⟩
    · rw [Context.load_store_bytes hw.1]; simp
    · rw [Context.load_store_bytes hw.1, if_neg ho]

theorem Context.sameKind_store (c d : Context) (o : Word) (b : Byte) : c.sameKind (d.store o b) = c.sameKind d := by
  cases c <;> cases d <;> rfl

/-- The law is the region's, whatever bytes it holds. -/
theorem Region.IsMemory.storeAt {r : Region} (h : r.IsMemory) (a : Word) (b : Byte) : (r.storeAt a b).IsMemory := by
  obtain ⟨h1, h2, h3⟩ := h
  exact ⟨h1, h2, fun c o b' hk hw ho => h3 c o b' (by simpa [Context.sameKind_store] using hk) hw ho⟩

/-- Two addresses a region covers have different offsets. -/
theorem Region.offset_inj {r : Region} {a b : Word} (h : r.offset a = r.offset b) : a = b := sub_left_injective h

end Sys2Proof

namespace Sys2Proof.Machine

/-- An address outside the stored ones reads as before. -/
theorem storeInto_loadAt_other {r : Region} (hm : r.IsMemory) (hw : r.wf = true) {ws : List (Word × Byte)}
    (hcov : ∀ w ∈ ws, r.covers w.1 = true) {a : Word} (ha : ∀ w ∈ ws, w.1 ≠ a) :
    (storeInto r ws).loadAt a = r.loadAt a := by
  induction ws generalizing r with
  | nil => rfl
  | cons w ws ih =>
    have hc := hcov w (by simp)
    have hwf := hw
    simp only [Region.wf, Bool.and_eq_true] at hwf
    have step : (r.storeAt w.1 w.2).loadAt a = r.loadAt a :=
      (hm.2.2 r.ctx (r.offset w.1) w.2 (by simp) hwf.2 (Region.offset_lt hc)).2 _
        (fun h => ha w (by simp) (Region.offset_inj h).symm)
    rw [← step]
    exact ih (hm.storeAt w.1 w.2) (Region.storeAt_wf w.2 hw hc) (fun v hv => hcov v (by simp [hv]))
      (fun v hv => ha v (by simp [hv]))

/-- A stored address reads as the byte stored there. -/
theorem storeInto_loadAt_same {r : Region} (hm : r.IsMemory) (hw : r.wf = true) {ws : List (Word × Byte)}
    (hcov : ∀ w ∈ ws, r.covers w.1 = true) (hnd : (ws.map (·.1)).Nodup) {a : Word} {b : Byte} (hab : (a, b) ∈ ws) :
    (storeInto r ws).loadAt a = b := by
  induction ws generalizing r with
  | nil => simp at hab
  | cons w ws ih =>
    have hc := hcov w (by simp)
    simp only [List.map_cons, List.nodup_cons] at hnd
    rcases List.mem_cons.mp hab with rfl | hab
    · have hwf := hw
      simp only [Region.wf, Bool.and_eq_true] at hwf
      have hother := storeInto_loadAt_other (r := r.storeAt a b) (hm.storeAt a b) (Region.storeAt_wf b hw hc)
        (ws := ws) (fun v hv => hcov v (by simp [hv])) (a := a)
        (fun v hv he => hnd.1 (List.mem_map.mpr ⟨v, hv, he⟩))
      refine hother.trans ?_
      exact (hm.2.2 r.ctx (r.offset a) b (by simp) hwf.2 (Region.offset_lt hc)).1
    · exact ih (hm.storeAt w.1 w.2) (Region.storeAt_wf w.2 hw hc) (fun v hv => hcov v (by simp [hv])) hnd.2 hab

/-! ### The host's moves -/

/-- Everything a change of a context can do (20_memory.md R86). -/
theorem setContext_some {k : Nat} {c : Context} {s t : State} :
    setContext k c s = some t ↔
      ∃ reg, s.regions[k]? = some reg ∧ c.sameKind reg.ctx = true ∧ c.wf reg.length = true ∧
        t = s.setRegions (s.regions.modify k (fun reg => { reg with ctx := c })) := by
  unfold setContext
  cases h : s.regions[k]? with
  | none => simp
  | some reg =>
    simp only [Option.some.injEq, exists_eq_left']
    split_ifs with hc
    · simp only [Bool.and_eq_true] at hc
      simp only [hc, true_and, Option.some.injEq]
      exact eq_comm
    · simp only [Bool.and_eq_true] at hc
      simp only [false_iff]
      exact fun h => hc ⟨h.1, h.2.1⟩

/-- Everything a load of an image can do (70_reset_and_hazards.md R242). -/
theorem loadImage_some {k o : Nat} {image : List Byte} {s t : State} :
    loadImage k o image s = some t ↔
      ∃ reg m, s.regions[k]? = some reg ∧ reg.ctx = .bytes m ∧ o + image.length ≤ reg.length.toNat ∧
        setContext k (.bytes (m.writeList o image)) s = some t := by
  unfold loadImage
  cases h : s.regions[k]? with
  | none => simp
  | some reg =>
    by_cases hfit : o + image.length ≤ reg.length.toNat
    · cases hc : reg.ctx <;> simp [placeImage, hc, hfit]
    · simp [hfit]

/-- Only the regions' contexts change. -/
theorem setContext_frame {k : Nat} {c : Context} {s t : State} (h : setContext k c s = some t) :
    t.x = s.x ∧ t.pc = s.pc ∧ t.settings = s.settings := by
  obtain ⟨reg, -, -, -, rfl⟩ := setContext_some.mp h
  exact ⟨rfl, rfl, rfl⟩

theorem modifyContext_getElem? (rs : List Region) (k : Nat) (c : Context) (j : Nat) :
    (rs.modify k (fun reg => { reg with ctx := c }))[j]? =
      rs[j]?.map (fun reg => if k = j then { reg with ctx := c } else reg) := by
  rw [List.getElem?_modify]
  split_ifs <;> cases rs[j]? <;> simp_all

theorem resolve_modifyContext (rs : List Region) (k : Nat) (c : Context) (cap : Capability) (a : Word) :
    resolve (rs.modify k (fun reg => { reg with ctx := c })) cap a =
      (resolve rs cap a).map
        (fun h => ⟨h.index, if k = h.index then { h.region with ctx := c } else h.region⟩) := by
  have hserves : ∀ (q : Region) (j : Nat), (if k = j then { q with ctx := c } else q).serves cap a = q.serves cap a := by
    intro q j
    split_ifs <;> cases cap <;> rfl
  cases hr : resolve rs cap a with
  | none =>
    rw [resolve_eq_none] at hr
    simp only [Option.map_none, resolve_eq_none]
    intro r hmem
    obtain ⟨j, hj⟩ := List.mem_iff_getElem?.mp hmem
    rw [modifyContext_getElem?] at hj
    obtain ⟨q, hq, rfl⟩ := Option.map_eq_some_iff.mp hj
    rw [hserves]; exact hr q (List.mem_of_getElem? hq)
  | some h =>
    obtain ⟨h1, h2, h3⟩ := resolve_eq_some.mp hr
    simp only [Option.map_some]
    refine resolve_eq_some.mpr ⟨by simp [modifyContext_getElem?, h1], by rw [hserves]; exact h2, fun j hj r hget => ?_⟩
    rw [modifyContext_getElem?] at hget
    obtain ⟨q, hq, rfl⟩ := Option.map_eq_some_iff.mp hget
    rw [hserves]; exact h3 j hj q hq

/-- A change of a context keeps every region well-formed. -/
theorem setContext_wf {k : Nat} {c : Context} {s t : State} (hs : s.Inv) (h : setContext k c s = some t) : t.Inv := by
  obtain ⟨reg, hreg, -, hw, rfl⟩ := setContext_some.mp h
  intro r hmem
  obtain ⟨j, hj⟩ := List.mem_iff_getElem?.mp hmem
  simp only [setRegions_regions, modifyContext_getElem?] at hj
  obtain ⟨q, hq, rfl⟩ := Option.map_eq_some_iff.mp hj
  have hq' := hs q (List.mem_of_getElem? hq)
  split_ifs with hkj
  · subst hkj
    rw [hreg, Option.some.injEq] at hq
    subst hq
    simp only [Region.wf, Bool.and_eq_true] at hq' ⊢
    exact ⟨hq'.1, hw⟩
  · exact hq'

/-! ### Construction -/

theorem firstBad_eq_none {ok : Region → Bool} {i : Nat} {rs : List Region} :
    firstBad ok i rs = none ↔ ∀ r ∈ rs, ok r = true := by
  induction rs generalizing i with
  | nil => simp [firstBad]
  | cons r rs ih =>
    simp only [firstBad]
    split_ifs with h
    · simp [ih, h]
    · simp [h]

/-- Everything a construction can do (00_scope.md R11). -/
theorem construct_ok {c : Config} {s : State} :
    construct c = .ok s ↔ (∀ r ∈ c.regions, r.wf = true) ∧ s = initialState c := by
  unfold construct
  cases h1 : firstBad Region.fits 0 c.regions with
  | some i =>
    simp only [reduceCtorEq, false_iff, not_and]
    intro hall
    have : firstBad Region.fits 0 c.regions = none := firstBad_eq_none.mpr fun r hr => by
      have := hall r hr
      simp only [Region.wf, Bool.and_eq_true] at this
      exact this.1
    rw [h1] at this; exact absurd this (by simp)
  | none =>
    cases h2 : firstBad Region.wf 0 c.regions with
    | some i =>
      simp only [reduceCtorEq, false_iff, not_and]
      intro hall
      rw [firstBad_eq_none.mpr hall] at h2; exact absurd h2 (by simp)
    | none =>
      simp only [Except.ok.injEq]
      exact ⟨fun h => ⟨firstBad_eq_none.mp h2, h.symm⟩, fun h => h.2.symm⟩

end Sys2Proof.Machine
end

