-- ==== Sys2Proof/Laws/Step.lean ====
section
/-!
SUPPORT. What an instruction, a fetch and a step can do, each said once (spec/40_step_engine.md R130, R138).
-/

namespace Sys2Proof.Machine

/-! ### Instructions (41_integer_alu.md) -/

@[simp] theorem exec_addi (rd rs1 : Reg) (imm : Word) (s : State) :
    exec (.addi rd rs1 imm) s = .next (s.writeReg rd (s.readReg rs1 + imm)) := rfl
@[simp] theorem exec_add (rd rs1 rs2 : Reg) (s : State) :
    exec (.add rd rs1 rs2) s = .next (s.writeReg rd (s.readReg rs1 + s.readReg rs2)) := rfl
@[simp] theorem exec_stub37 (g : BitVec 25) (s : State) : exec (.stub37 g) s = .next s := rfl
@[simp] theorem exec_stub36 (g : BitVec 25) (s : State) : exec (.stub36 g) s = .next s := rfl

/-- Everything an instruction can do: it ends in a next state, by one register write. -/
theorem exec_eq_writeReg (i : Instr) (s : State) : ∃ rd v, exec i s = .next (s.writeReg rd v) := by
  cases i with
  | addi rd rs1 imm => exact ⟨rd, _, rfl⟩
  | add rd rs1 rs2 => exact ⟨rd, _, rfl⟩
  | stub37 g => exact ⟨0, 0, by simp⟩
  | stub36 g => exact ⟨0, 0, by simp⟩

/-- What every instruction leaves alone. -/
theorem exec_frame {i : Instr} {s t : State} (h : exec i s = .next t) :
    t.pc = s.pc ∧ t.regions = s.regions ∧ t.settings = s.settings := by
  obtain ⟨rd, v, hx⟩ := exec_eq_writeReg i s
  rw [hx, Host.Outcome.next.injEq] at h
  subst h
  exact ⟨writeReg_pc .., writeReg_regions .., writeReg_settings ..⟩

/-! ### Fetch (40_step_engine.md R131, R137) -/

theorem fetch_ok {s : State} {w : InstrWord} :
    fetch s = .ok w ↔ ∃ v, routerLoad s.regions .fetch s.pc 32 = .ok v ∧ w = v.setWidth 32 := by
  unfold fetch
  cases routerLoad s.regions .fetch s.pc 32 <;> simp [eq_comm]

theorem fetch_error {s : State} {e : TrapReason} :
    fetch s = .error e ↔ resolveAll s.regions .load .fetch (byteAddrs s.pc 4) = .error e := by
  have : fetch s = .error e ↔ routerLoad s.regions .fetch s.pc 32 = .error e := by
    unfold fetch
    cases routerLoad s.regions .fetch s.pc 32 <;> simp
  rw [this, routerLoad_error]
  simp [supportedWidth]

/-- A fetch that fails is a miss of one of the four bytes, the lowest that no region serves. -/
theorem fetch_error_iff {s : State} {e : TrapReason} :
    fetch s = .error e ↔
      ∃ i, i < 4 ∧ resolve s.regions .load (s.pc + BitVec.ofNat 64 i) = none ∧
        e = .busMiss .fetch (s.pc + BitVec.ofNat 64 i) ∧
        ∀ j, j < i → resolve s.regions .load (s.pc + BitVec.ofNat 64 j) ≠ none := by
  rw [fetch_error, resolveAll_error]
  constructor
  · rintro ⟨i, a, ha, hn, he, hall⟩
    obtain ⟨hi, ha⟩ := List.getElem?_eq_some_iff.mp ha
    rw [byteAddrs_getElem] at ha
    simp only [byteAddrs_length] at hi
    subst ha
    refine ⟨i, hi, hn, he, fun j hj => hall j hj _ ?_⟩
    exact List.getElem?_eq_some_iff.mpr ⟨by simp; omega, byteAddrs_getElem ..⟩
  · rintro ⟨i, hi, hn, he, hall⟩
    refine ⟨i, _, List.getElem?_eq_some_iff.mpr ⟨by simpa using hi, byteAddrs_getElem ..⟩, hn, he,
      fun j hj b hb => ?_⟩
    obtain ⟨hj', hb⟩ := List.getElem?_eq_some_iff.mp hb
    rw [byteAddrs_getElem] at hb
    exact hb ▸ hall j hj

/-! ### Steps -/

/-- Everything that makes a step a `Continue` (R130, R147). -/
theorem step_next {s t : State} :
    step s = .next t ↔
      ∃ w i u, fetch s = .ok w ∧ decode s.settings.dispatch w = .instr i ∧ exec i s = .next u ∧
        t = u.advancePc := by
  unfold step
  cases hf : fetch s with
  | error e => simp
  | ok w =>
    cases hd : decode s.settings.dispatch w with
    | unknown => simp [hd]
    | instr i =>
      obtain ⟨rd, v, hx⟩ := exec_eq_writeReg i s
      simp [hd, hx, completeStep, eq_comm]

/-- Everything that makes a step a reported condition (R137, R141). -/
theorem step_fault {s : State} {f : Fault} :
    step s = .fault f ↔
      (∃ e, fetch s = .error e ∧ f = .trap e) ∨
        (∃ w, fetch s = .ok w ∧ decode s.settings.dispatch w = .unknown ∧ f = .unknownInstruction) := by
  unfold step
  cases hf : fetch s with
  | error e => simp [eq_comm]
  | ok w =>
    cases hd : decode s.settings.dispatch w with
    | unknown => simp [hd, eq_comm]
    | instr i =>
      obtain ⟨rd, v, hx⟩ := exec_eq_writeReg i s
      simp [hd, hx, completeStep]

/-- No step is refused. -/
theorem step_ne_refused (s : State) (r : Refusal) : step s ≠ .refused r := by
  unfold step
  cases hf : fetch s with
  | error e => simp
  | ok w =>
    cases hd : decode s.settings.dispatch w with
    | unknown => simp [hd]
    | instr i =>
      obtain ⟨rd, v, hx⟩ := exec_eq_writeReg i s
      simp [hd, hx, completeStep]

/-- What a step leaves alone: a register write and the pc's advance are all it does. -/
theorem step_next_eq {s t : State} (h : step s = .next t) : ∃ rd v, t = (s.writeReg rd v).advancePc := by
  obtain ⟨w, i, u, -, -, hx, rfl⟩ := step_next.mp h
  obtain ⟨rd, v, hx'⟩ := exec_eq_writeReg i s
  rw [hx', Host.Outcome.next.injEq] at hx
  exact ⟨rd, v, by rw [hx]⟩

/-! ### Reports -/

theorem stepReport_of_next {s t : State} (h : step s = .next t) :
    stepReport s = .ok { outcome := .continued, state := t, events := stepEvents s } := by
  simp [stepReport, h]

theorem stepReport_of_fault {s : State} {f : Fault} (h : step s = .fault f) :
    stepReport s = .ok (takeCondition f (stepEvents s) s) := by
  simp [stepReport, h]

/-- Every step has a report: it is `Continue` with the next state, or a condition with the state as it was
(R138, 60_exceptions.md R206). -/
theorem stepReport_cases (s : State) :
    (∃ t, step s = .next t ∧
        stepReport s = .ok { outcome := .continued, state := t, events := stepEvents s }) ∨
      (∃ f, step s = .fault f ∧ stepReport s = .ok { outcome := f.outcome, state := s, events := stepEvents s }) := by
  cases h : step s with
  | next t => exact .inl ⟨t, rfl, stepReport_of_next h⟩
  | fault f => exact .inr ⟨f, rfl, stepReport_of_fault h⟩
  | refused r => exact absurd h (step_ne_refused s r)

theorem fault_outcome_ne_continued (f : Fault) : f.outcome ≠ .continued := by
  cases f <;> simp [Fault.outcome]

/-! ### Events (45_diagnostics.md R181, R187) -/

theorem mem_emit {st : Settings} {e d : TraceEvent} :
    d ∈ emit st e ↔ d = e ∧ st.sinkPresent = true ∧ gate st.flags e = true := by
  unfold emit
  split_ifs with h
  · simp only [Bool.and_eq_true] at h; simp [h]
  · simp only [Bool.and_eq_true] at h
    simp only [List.not_mem_nil, false_iff]
    exact fun hd => h hd.2

theorem stepEvents_of_error {s : State} {e : TrapReason} (h : fetch s = .error e) :
    stepEvents s = emit s.settings (.error (.fetchFault s.pc e)) := by
  simp [stepEvents, h]

theorem stepEvents_of_unknown {s : State} {w : InstrWord} (h : fetch s = .ok w)
    (hd : decode s.settings.dispatch w = .unknown) :
    stepEvents s = emit s.settings (opcodeEvent s w) ++ emit s.settings (.error (.unknown s.pc w)) := by
  simp [stepEvents, h, hd]

theorem stepEvents_of_instr {s t : State} {w : InstrWord} {i : Instr} (h : fetch s = .ok w)
    (hd : decode s.settings.dispatch w = .instr i) (hx : exec i s = .next t) :
    stepEvents s = emit s.settings (opcodeEvent s w) ++ completionEvents i t := by
  simp [stepEvents, h, hd, hx]

end Sys2Proof.Machine
end

