-- ==== Sys2Proof/Tests/Slice0.lean ====
section
/-!
SUPPORT. Tests and witnesses. The expected results are those of spec/95_test_vectors.md, whose row a docstring names, or
words written out from spec/30_encoding.md R102 to R106. A `witness_<Name>` theorem shows inputs that meet the hypotheses
of the obligation of that name all together, clause by clause where it has several.
-/

namespace Sys2Proof.Tests

open Sys2Proof.Machine

/-! ### Small states -/

/-- A memory region that holds these bytes. -/
def mem (base : Word) (bs : List Byte) (canLoad canStore : Bool) : Region :=
  { base := base, length := BitVec.ofNat 64 bs.length, canLoad := canLoad, canStore := canStore
    ctx := .bytes (Memory.ofBytes bs) }

/-- The default configuration with these regions, right after construction. -/
def withRegions (rs : List Region) : State := State.reset.setRegions rs

/-- The bytes `b0 .. b3` in `[0, 4) L`, `pc` 0. -/
def at0 (b0 b1 b2 b3 : Byte) : State := withRegions [mem 0 [b0, b1, b2, b3] true false]

/-- The state under other dispatch parameters. -/
def under (legacy stub : Bool) (s : State) : State :=
  { s with settings := { s.settings with dispatch := ⟨legacy, stub⟩ } }

/-- The state with the sink present and these flags. -/
def traced (f : DiagnosticFlags) (s : State) : State :=
  { s with settings := { s.settings with sinkPresent := true, flags := f } }

/-- The state a step leaves, with its outcome. -/
def after (s : State) : Option (StepOutcome × State) :=
  match stepReport s with
  | .ok r => some (r.outcome, r.state)
  | .error _ => none

/-- The next state of an outcome. -/
def nextOf : Host.Outcome State Fault Refusal → Option State
  | .next t => some t
  | .fault _ => none
  | .refused _ => none

/-- The fault of an outcome. -/
def faultOf : Host.Outcome State Fault Refusal → Option Fault
  | .next _ => none
  | .fault f => some f
  | .refused _ => none

theorem of_nextOf {o : Host.Outcome State Fault Refusal} {t : State} (h : nextOf o = some t) : o = .next t := by
  cases o <;> simp_all [nextOf]

theorem of_faultOf {o : Host.Outcome State Fault Refusal} {f : Fault} (h : faultOf o = some f) : o = .fault f := by
  cases o <;> simp_all [faultOf]

/-- `addi x10, x0, 5`, W8. -/
def w8 : State := at0 0x13 0x05 0x50 0x00
/-- `add x3, x1, x2`, D-8. -/
def d8 : State := at0 0xB3 0x81 0x20 0x00
/-- The placeholder word of D-12, under `STUB_PLACEHOLDERS`. -/
def s1 : State := under false true (at0 0xB7 0x50 0x34 0x12)
/-- The placeholder word of D-13, under `STUB_PLACEHOLDERS`. -/
def s2 : State := under false true (at0 0x36 0x00 0x00 0x00)
/-- The all-ones word, W9. -/
def w9 : State := at0 0xFF 0xFF 0xFF 0xFF
/-- `[0x100, 0x108) LS` holding 0. -/
def ram : List Region := [mem 0x100 (List.replicate 8 0) true true]

theorem step_w8 : step w8 = .next ((w8.writeReg 10 5).setPc 4) := of_nextOf (by decide)
theorem step_d8 : step d8 = .next (d8.setPc 4) := of_nextOf (by decide)
theorem step_s1 : step s1 = .next (s1.setPc 4) := of_nextOf (by decide)
theorem step_s2 : step s2 = .next (s2.setPc 4) := of_nextOf (by decide)
theorem step_w9 : step w9 = .fault .unknownInstruction := of_faultOf (by decide)
theorem step_reset : step State.reset = .fault (.trap (.busMiss .fetch 0)) := of_faultOf (by decide)

/-! ### WellFormed -/

/-- 30_encoding.md R105: one past each end of `[-2048, 2047]` is refused. -/
theorem test_wf_refuses_addi_2048 : (Instr.addi 1 0 (BitVec.ofInt 64 2048)).wf = false := by decide
theorem test_wf_refuses_addi_minus_2049 : (Instr.addi 1 0 (BitVec.ofInt 64 (-2049))).wf = false := by decide
theorem test_wf_accepts_both_ends :
    (Instr.addi 1 0 (BitVec.ofInt 64 2047)).wf = true ∧ (Instr.addi 1 0 (BitVec.ofInt 64 (-2048))).wf = true := by decide

/-! ### Decode: words written field by field -/

/-- R104: imm `0000_0000_0101`, rs1 `00000`, funct3 `000`, rd `01010`, opcode `0010011`. -/
theorem test_decode_addi :
    decode ⟨false, false⟩ 0b00000000010100000000010100010011#32 = .instr (.addi 10 0 5) := by decide
/-- R104: imm `1000_0000_0000` is -2048, rd `00001`. -/
theorem test_decode_addi_minus_2048 :
    decode ⟨false, false⟩ 0b10000000000000000000000010010011#32 = .instr (.addi 1 0 0xFFFFFFFFFFFFF800#64) := by decide
/-- R103: funct7 `0000000`, rs2 `00010`, rs1 `00001`, funct3 `000`, rd `00011`, opcode `0110011`. -/
theorem test_decode_add :
    decode ⟨false, false⟩ 0b00000000001000001000000110110011#32 = .instr (.add 3 1 2) := by decide
/-- R110: opcode `0110111`, every other bit ignored. -/
theorem test_decode_stub37 :
    decode ⟨false, true⟩ 0b00010010001101000101000010110111#32 = .instr (.stub37 0b0001001000110100010100001#25) := by
  decide
/-- R110: opcode `0110110`. -/
theorem test_decode_stub36 :
    decode ⟨false, true⟩ 0b00000000000000000000000000110110#32 = .instr (.stub36 0#25) := by decide
/-- D-6, D-9 to D-11: a funct mismatch is unknown when strict, and ADDI or ADD when legacy. -/
theorem test_decode_funct_mismatch :
    (decode ⟨false, false⟩ 0x00309093#32 = .unknown ∧ decode ⟨true, false⟩ 0x00309093#32 = .instr (.addi 1 1 3)) ∧
      decode ⟨false, false⟩ 0x402081B3#32 = .unknown ∧ decode ⟨true, false⟩ 0x402081B3#32 = .instr (.add 3 1 2) ∧
      decode ⟨false, false⟩ 0x022081B3#32 = .unknown ∧ decode ⟨false, false⟩ 0x0020C1B3#32 = .unknown := by decide
/-- D-14 to D-18: unknown under every setting. -/
theorem test_decode_unknown :
    ∀ legacy stub, [0xFFFFFFFF#32, 0x00000000#32, 0x00000073#32, 0x0000000F#32, 0x00000012#32].all
      (fun w => decode ⟨legacy, stub⟩ w == .unknown) = true := by decide
/-- 30_encoding.md R100: little-endian, byte 0 first. -/
theorem test_word_of_bytes : wordOfBytes 0x13 0x05 0x50 0x00 = 0x00500513#32 := by decide
theorem test_decode_bytes :
    decodeBytes ⟨false, false⟩ [0x13, 0x05, 0x50, 0x00, 0xAA] = .ok (.addi 10 0 5, [0xAA]) ∧
      decodeBytes ⟨false, false⟩ [0x13, 0x05, 0x50] = .error (.truncated 3) ∧
      decodeBytes ⟨false, false⟩ [0x73, 0, 0, 0] = .error (.unknownInstruction 0x73#32) := by decide
/-- Each row of the opcode table, its match number. -/
theorem test_decode_table_word :
    decodeTableWord 32 0x13 = some (.addi 0 0 0) ∧ decodeTableWord 32 0x33 = some (.add 0 0 0) ∧
      decodeTableWord 32 0x37 = some (.stub37 0) ∧ decodeTableWord 32 0x36 = some (.stub36 0) := by decide
/-- 30_encoding.md R116's worked word. -/
theorem test_encode_addi : encode (.addi 10 0 5) = 0x00500513#32 := by decide

/-! ### Instructions -/

/-- A1, W8. -/
theorem test_addi : after w8 = some (.continued, (w8.writeReg 10 5).setPc 4) := by decide
/-- A3: `addi x2, x1, 1` wraps up. -/
theorem test_addi_wraps :
    (after ((at0 0x13 0x81 0x10 0x00).writeReg 1 (BitVec.allOnes 64))).map (fun p => p.2.readReg 2) = some 0 := by decide
/-- B1: 5 + (-3). -/
theorem test_add :
    after ((d8.writeReg 1 5).writeReg 2 0xFFFFFFFFFFFFFFFD#64) =
      some (.continued, (((d8.writeReg 1 5).writeReg 2 0xFFFFFFFFFFFFFFFD#64).writeReg 3 2).setPc 4) := by decide
/-- B5: `add x1, x1, x1`, both sources and the destination one register. -/
theorem test_add_same_register :
    (after ((at0 0xB3 0x80 0x10 0x00).writeReg 1 21)).map (fun p => p.2.readReg 1) = some 42 := by decide
/-- S1: not LUI. -/
theorem test_stub37 : after s1 = some (.continued, s1.setPc 4) := by decide
/-- S2. -/
theorem test_stub36 : after s2 = some (.continued, s2.setPc 4) := by decide
/-- A7: `addi x0, x0, 5`. -/
theorem test_addi_discards_x0 :
    after (at0 0x13 0x00 0x50 0x00) = some (.continued, (at0 0x13 0x00 0x50 0x00).setPc 4) := by decide
/-- The host's two questions, on a row of each kind: the word runs as the first instruction after reset. -/
theorem test_fetch_word_addi :
    step (State.reset.withFetchWord 32 0x00500513) =
      .next (((State.reset.withFetchWord 32 0x00500513).writeReg 10 5).setPc 4) := of_nextOf (by decide)
theorem test_fetch_word_stub37 :
    step (State.reset.withFetchWord 32 0x37) = .next ((State.reset.withFetchWord 32 0x37).setPc 4) :=
  of_nextOf (by decide)

/-! ### Conditions and the router -/

/-- W9, U1. -/
theorem test_unknown : after (w9.setPc 0) = some (.unknownInstruction, w9) := by decide
/-- F1. -/
theorem test_fetch_no_region : after State.reset = some (.trap (.busMiss .fetch 0), State.reset) := by decide
/-- F2: bytes 0 and 1 resolve, byte 2 is the lowest miss. -/
theorem test_fetch_partial_miss :
    step (withRegions [mem 0 [0, 0] true false]) = .fault (.trap (.busMiss .fetch 2)) :=
  of_faultOf (by decide)
/-- F5: the fetch straddles two regions. -/
theorem test_fetch_straddles :
    fetch (withRegions [mem 0 [0x13, 0x05] true false, mem 2 [0x50, 0x00] true false]) = .ok 0x00500513#32 := by decide
/-- F7, F8: the sum `2^64 - 1` is accepted, `2^64` refused. -/
theorem test_construct_bounds :
    let r (n : Nat) : Region := { mem 0 [] true false with base := 0xFFFFFFFFFFFFFFF0#64, length := BitVec.ofNat 64 n }
    construct { settings := resetSettings, regions := [r 15] } = .ok (withRegions [r 15]) ∧
      construct { settings := resetSettings, regions := [r 16] } = .error (.regionOverflows 0) := by decide
/-- F9: byte `2^64 - 1` is never mapped. -/
theorem test_fetch_at_the_top :
    step ((withRegions [mem 0xFFFFFFFFFFFFFFF0#64 (List.replicate 15 0) true false]).setPc 0xFFFFFFFFFFFFFFFC#64) =
      .fault (.trap (.busMiss .fetch 0xFFFFFFFFFFFFFFFF#64)) := of_faultOf (by decide)
/-- F12, F13, F14. -/
theorem test_router_little_endian :
    (routerStore ram 0x100 0x0102030405060708#64 64).toOption.map (fun rs =>
      [routerLoad rs .load 0x100 16, routerLoad rs .load 0x101 32, routerLoad rs .load 0x107 8].map Except.toOption) =
      some [some 0x0708, some 0x04050607, some 0x01] := by decide
/-- F16: all or nothing. -/
theorem test_router_store_miss :
    routerStore [mem 0x100 [0, 0, 0, 0] true true] 0x102 0x11223344 32 = .error (.busMiss .store 0x104) := by decide
/-- F18: the width is checked before any resolution. -/
theorem test_router_width :
    routerLoad [] .load 0x100 24 = .error (.unsupportedAccessWidth 24) ∧
      routerStore ram 0x100 0 12 = .error (.unsupportedAccessWidth 12) := by decide
/-- F19: the store goes to the second region, the load is served by the first. -/
theorem test_router_overlap :
    (routerStore [mem 0x200 [0xAA] true false, mem 0x200 [0] true true] 0x200 0x55 8).toOption.map (fun rs =>
      (rs, (routerLoad rs .load 0x200 8).toOption)) =
      some ([mem 0x200 [0xAA] true false, mem 0x200 [0x55] true true], some 0xAA) := by decide
/-- A write of what an unlisted offset reads as removes the cell. -/
theorem test_memory_canonical : (Memory.ofBytes [1, 2, 3]).write 1 0 = [(0, 1), (2, 3)] := by decide

/-! ### Trace, host and assembler -/

/-- T1, but for the dump, whose first and eleventh entries are shown. -/
theorem test_trace_addi :
    (stepEvents (traced ⟨true, true, false, true, false⟩ w8) =
        [.opcode 0 0x13, .disasm "addi" ["x10", "x0"] (some 5)]) ∧
      stepEvents (traced ⟨false, false, true, false, true⟩ w8) =
        [.regDump ((List.finRange 32).map (fun r => (regName true r, if r = 10 then 5 else 0)))] := by decide
/-- T4, T6, T7: an unknown word, a fetch failure and a stub. -/
theorem test_trace_conditions :
    stepEvents (traced ⟨true, true, true, true, false⟩ w9) = [.opcode 0 0x7F, .error (.unknown 0 0xFFFFFFFF#32)] ∧
      stepEvents (traced ⟨true, true, true, true, false⟩ State.reset) =
        [.error (.fetchFault 0 (.busMiss .fetch 0))] ∧
      stepEvents (traced ⟨true, true, false, true, false⟩ s1) = [.opcode 0 0x37] := by decide
/-- The scenario of W8 written in assembler (30_encoding.md R117), a refused immediate (D33) and a pseudo-instruction. -/
theorem test_assemble :
    assembleLine "addi a0, zero, 5" = some (.addi 10 0 5) ∧ assembleLine "addi a0, zero, 2048" = none ∧
      assembleLine "add x3, ra, x2" = some (.add 3 1 2) ∧ assembleLine "mv sp, t6" = some (.addi 2 31 0) ∧
      asmText true (.addi 10 0 (BitVec.ofInt 64 (-5))) = some "addi a0, zero, -5" := by decide
/-- 00_scope.md R15. -/
theorem test_inspect : (after w8).map (fun p => (p.2.inspect.x[10], p.2.inspect.x[0], p.2.inspect.pc)) = some (5, 0, 4) := by
  decide
/-- Log entry 18: an image past the region's end is refused, even where all that hangs over is 0. -/
theorem test_load_image_overhang :
    loadImage 0 0 [1, 2, 3, 4, 0] w9 = none ∧ loadImage 0 1 [0, 0, 0, 0] w9 = none ∧
      (loadImage 0 1 [0, 0, 0] w9).isSome = true := by decide
/-- 70_reset_and_hazards.md R242: the loader's bytes are what the next fetch reads. -/
theorem test_load_image :
    (loadImage 0 0 [0x13, 0x05, 0x50, 0x00] w9).map (fun t => (fetch t).toOption) = some (some 0x00500513#32) := by decide

/-! ### Witnesses: registers, reset and the router -/

theorem witness_RegisterReadAfterWrite :
    (∃ c s, construct c = .ok s) ∧ (31 : Reg) ≠ 1 ∧ (0 : Reg) ≠ 1 :=
  ⟨⟨{ settings := resetSettings, regions := ram }, withRegions ram, by decide⟩, by decide⟩

theorem witness_ConstructionGivesResetState :
    ∃ c s, c.regions ≠ [] ∧ construct c = .ok s :=
  ⟨{ settings := resetSettings, regions := ram }, withRegions ram, by decide⟩

theorem witness_ConstructionRefusesOverflowingRegions :
    let r : Region := { mem 0 [] true false with base := 1#64, length := BitVec.allOnes 64 }
    (construct { settings := resetSettings, regions := [r] } = .error (.regionOverflows 0) ∧
        2 ^ 64 - 1 < r.base.toNat + r.length.toNat) ∧
      construct { settings := resetSettings, regions := ram } = .ok (withRegions ram) ∧
      (∀ r ∈ ram, r.base.toNat + r.length.toNat ≤ 2 ^ 64 - 1 ∧ r.ctx.wf r.length = true) := by decide

theorem witness_TopByteAndEmptyRegionsAreUnmapped :
    (∃ s : State, s.regions ≠ [] ∧ s.Inv) ∧ ∃ r : Region, r.length = 0 :=
  ⟨⟨withRegions [mem 0xFFFFFFFFFFFFFFF0#64 (List.replicate 15 1) true true], by decide⟩, mem 0 [] true true, by decide⟩

/-- Both clauses: the hit of the first of two matching regions, and a miss. -/
theorem witness_ResolveIsTheFirstMatch :
    resolve (mem 0x100 [7] true false :: ram) .load 0x100 = some ⟨0, mem 0x100 [7] true false⟩ ∧
      resolve (mem 0x100 [7] true false :: ram) .store 0x107 = some ⟨1, mem 0x100 (List.replicate 8 0) true true⟩ ∧
      resolve ram .load 0x108 = none := by decide

theorem witness_OverlapIsServedByCapability :
    ∃ (r1 r2 : Region) (a : Word), r1.canLoad = true ∧ r1.canStore = false ∧ r2.canLoad = true ∧ r2.canStore = true ∧
      r1.covers a = true ∧ r2.covers a = true :=
  ⟨mem 0x200 [0xAA] true false, mem 0x200 [0] true true, 0x200, by decide⟩

theorem witness_LoadComposesResolvedBytes :
    ∀ n ∈ [8, 16, 32, 64], ∀ i, i < n / 8 → (resolve ram .load (0x100 + BitVec.ofNat 64 i)).isSome = true := by decide

/-- A miss at the first byte and at the last, of a load and of a store. -/
theorem witness_LowestMissedByteIsReported :
    (resolve ram .load (0xFF + BitVec.ofNat 64 0) = none ∧ resolve ram .store (0xFF + BitVec.ofNat 64 0) = none) ∧
      resolve ram .load (0x101 + BitVec.ofNat 64 7) = none ∧ resolve ram .store (0x101 + BitVec.ofNat 64 7) = none ∧
      ∀ j, j < 7 → resolve ram .load (0x101 + BitVec.ofNat 64 j) ≠ none ∧
        resolve ram .store (0x101 + BitVec.ofNat 64 j) ≠ none := by decide

theorem witness_UnsupportedWidthIsReported :
    ∀ n ∈ [0, 7, 9, 24, 128], n ≠ 8 ∧ n ≠ 16 ∧ n ≠ 32 ∧ n ≠ 64 := by decide

/-- Each clause: every width resolves, and a store that succeeds. -/
theorem witness_StoreCallsCapabilitiesInByteOrder :
    (∀ n ∈ [8, 16, 32, 64], ∀ i, i < n / 8 → (resolve ram .store (0x100 + BitVec.ofNat 64 i)).isSome = true) ∧
      ∃ rs', routerStore ram 0x100 0x0102030405060708#64 64 = .ok rs' ∧
        ram[0]? = some (mem 0x100 (List.replicate 8 0) true true) :=
  ⟨by decide, [mem 0x100 [8, 7, 6, 5, 4, 3, 2, 1] true true], by decide⟩

theorem witness_StoreWritesExactlyItsBytes :
    (∀ r ∈ ram, r.wf = true) ∧ (∃ rs', routerStore ram 0x102 0x1122#64 16 = .ok rs') ∧
      (∃ r m, ram[0]? = some r ∧ r.ctx = .bytes m ∧
        (∀ i, i < 2 → resolve ram .store (0x102 + BitVec.ofNat 64 i) = some ⟨0, r⟩) ∧
        ∀ i, i < 2 → (0x102 + BitVec.ofNat 64 i - r.base).toNat ≠ 4) :=
  ⟨by decide, ⟨[mem 0x100 [0, 0, 0x22, 0x11, 0, 0, 0, 0] true true], by decide⟩,
    mem 0x100 (List.replicate 8 0) true true, [], by decide⟩

/-- A memory context obeys the law of 20_memory.md R77. -/
theorem ram_isMemory : (mem 0x100 (List.replicate 8 0) true true).IsMemory := by
  refine ⟨rfl, rfl, fun c o b hk hwf _ => ?_⟩
  cases c with
  | device id regs => cases hk
  | bytes m =>
    simp only [Context.wf, Bool.and_eq_true] at hwf
    refine ⟨?_, fun o' ho => ?_⟩
    · rw [Context.load_store_bytes hwf.1, if_pos rfl]
    · rw [Context.load_store_bytes hwf.1, if_neg ho]

/-- The narrowest load inside the widest store, at its last byte. -/
theorem witness_NarrowLoadSeesBytesOfWiderStore :
    (∀ r ∈ ram, r.wf = true) ∧ (∃ rs', routerStore ram 0x100 0x0102030405060708#64 64 = .ok rs') ∧
      (∀ i, i < 64 / 8 → ∃ h, h.region.IsMemory ∧ resolve ram .store (0x100 + BitVec.ofNat 64 i) = some h ∧
        resolve ram .load (0x100 + BitVec.ofNat 64 i) = some h) ∧ 8 * 7 + 8 ≤ 64 := by
  refine ⟨by decide, ⟨[mem 0x100 [8, 7, 6, 5, 4, 3, 2, 1] true true], by decide⟩, fun i hi => ?_, by decide⟩
  refine ⟨⟨0, mem 0x100 (List.replicate 8 0) true true⟩, ram_isMemory, ?_⟩
  revert i
  decide

/-! ### Witnesses: encoding -/

/-- Both branches of the immediate's sign, at the values next to each other. -/
theorem witness_FieldsOfEveryWord :
    (0x7FFFFFFF#32).toNat / 2 ^ 20 < 2 ^ 11 ∧ ¬ (0x80000000#32).toNat / 2 ^ 20 < 2 ^ 11 := by decide

/-- Each of the five clauses, strict and legacy. -/
theorem witness_DecodeFollowsTheOpcodeTable :
    (0x00500513#32 &&& 0x0000707F#32 = 0x00000013#32 ∧ 0x00309093#32 &&& 0x0000007F#32 = 0x00000013#32) ∧
      (0x002081B3#32 &&& 0xFE00707F#32 = 0x00000033#32 ∧ 0x402081B3#32 &&& 0x0000007F#32 = 0x00000033#32) ∧
      0x123450B7#32 &&& 0x0000007F#32 = 0x00000037#32 ∧ 0x00000036#32 &&& 0x0000007F#32 = 0x00000036#32 ∧
      (0x402081B3#32 &&& 0x0000707F#32 ≠ 0x00000013#32 ∧ 0x402081B3#32 &&& 0xFE00707F#32 ≠ 0x00000033#32 ∧
        0x402081B3#32 &&& 0x0000007F#32 ≠ 0x00000037#32 ∧ 0x402081B3#32 &&& 0x0000007F#32 ≠ 0x00000036#32) := by decide

theorem witness_LowBitsSelectNoLength :
    (0x00000012#32).extractLsb' 0 2 ≠ 0b11#2 ∧ (0x00000036#32).extractLsb' 0 2 ≠ 0b11#2 := by decide

/-- One instruction of each constructor, the immediates at both ends. -/
theorem witness_DecodeInvertsEncode :
    [Instr.addi 31 0 (BitVec.ofInt 64 (-2048)), .addi 0 31 2047, .add 31 0 31, .stub37 (BitVec.allOnes 25), .stub36 0].all
      (fun i => i.wf && (!i.isStub || tableMode.stubPlaceholders)) = true := by decide

theorem witness_EncodeInvertsStrictDecode :
    decode ⟨false, false⟩ 0xFFFFFF93#32 = .unknown ∧ decode ⟨false, false⟩ 0xFFFF8F93#32 = .instr (.addi 31 31 (BitVec.allOnes 64)) ∧
      decode ⟨false, true⟩ 0xFFFFFFB7#32 = .instr (.stub37 (BitVec.allOnes 25)) := by decide

/-! ### Witnesses: instructions and steps -/

/-- Every clause: two states that agree on the source and differ elsewhere. -/
theorem witness_RegistersEachInstructionAccesses :
    ((d8.writeReg 1 5).readReg 1 = ((d8.writeReg 1 5).writeReg 7 9).readReg 1 ∧
        (d8.writeReg 1 5).readReg 2 = ((d8.writeReg 1 5).writeReg 7 9).readReg 2) ∧
      (∃ t t', exec (.addi 3 1 4) (d8.writeReg 1 5) = .next t ∧
        exec (.addi 3 1 4) ((d8.writeReg 1 5).writeReg 7 9) = .next t') ∧
      (∃ t t', exec (.add 3 1 2) (d8.writeReg 1 5) = .next t ∧
        exec (.add 3 1 2) ((d8.writeReg 1 5).writeReg 7 9) = .next t') ∧
      (Instr.isStub (.stub37 0) = true ∧ exec (.stub37 0) s1 = .next s1) ∧ (31 : Reg) ≠ 0 :=
  ⟨by decide, ⟨_, _, rfl, rfl⟩, ⟨_, _, rfl, rfl⟩, ⟨rfl, rfl⟩, by decide⟩

theorem witness_AdditionHasNoSignedness :
    (3 : Reg) ≠ 0 ∧ (∃ t, exec (.addi 3 1 (BitVec.allOnes 64)) d8 = .next t) ∧ ∃ u, exec (.add 3 1 2) d8 = .next u :=
  ⟨by decide, ⟨_, rfl⟩, _, rfl⟩

/-- ADDI and ADD with destination `x0` (A7, B4), the Disasm gate open. -/
theorem witness_DestinationZeroIsDiscarded :
    let f : DiagnosticFlags := ⟨true, false, false, false, false⟩
    let s := traced f (at0 0x13 0x00 0x50 0x00)
    let t := traced f (at0 0x33 0x80 0x10 0x00)
    (fetch s = .ok 0x00500013#32 ∧ decode s.settings.dispatch 0x00500013#32 = .instr (.addi 0 0 5)) ∧
      (fetch t = .ok 0x00108033#32 ∧ decode t.settings.dispatch 0x00108033#32 = .instr (.add 0 1 1)) ∧
      s.settings.sinkPresent = true ∧ s.settings.flags.decodeTrace = true := by decide

theorem witness_StepRunsTheDecodedInstruction :
    fetch w8 = .ok 0x00500513#32 ∧ decode w8.settings.dispatch 0x00500513#32 = .instr (.addi 10 0 5) ∧
      exec (.addi 10 0 5) w8 = .next (w8.writeReg 10 5) :=
  ⟨by decide, by decide, of_nextOf (by decide)⟩

/-- Strict, and a word that only legacy dispatch runs (A14). -/
theorem witness_AddiWordsStep :
    (fetch w8 = .ok 0x00500513#32 ∧ opcodeOf 0x00500513#32 = 0x13#7 ∧ funct3Of 0x00500513#32 = 0b000#3) ∧
      fetch (under true false (at0 0x93 0x90 0x30 0x00)) = .ok 0x00309093#32 ∧ opcodeOf 0x00309093#32 = 0x13#7 ∧
      (under true false (at0 0x93 0x90 0x30 0x00)).settings.dispatch.legacyOpcodeOnly = true := by decide

/-- Strict, and a word that only legacy dispatch runs (B7). -/
theorem witness_AddWordsStep :
    (fetch d8 = .ok 0x002081B3#32 ∧ opcodeOf 0x002081B3#32 = 0x33#7 ∧ funct3Of 0x002081B3#32 = 0b000#3 ∧
        funct7Of 0x002081B3#32 = 0b0000000#7) ∧
      fetch (under true false (at0 0xB3 0x81 0x20 0x40)) = .ok 0x402081B3#32 ∧ opcodeOf 0x402081B3#32 = 0x33#7 ∧
      (under true false (at0 0xB3 0x81 0x20 0x40)).settings.dispatch.legacyOpcodeOnly = true := by decide

/-- Both opcodes, and both values of the parameter. -/
theorem witness_PlaceholderWordsStep :
    (fetch s1 = .ok 0x123450B7#32 ∧ opcodeOf 0x123450B7#32 = 0x37#7 ∧ s1.settings.dispatch.stubPlaceholders = true) ∧
      (fetch s2 = .ok 0x00000036#32 ∧ opcodeOf 0x00000036#32 = 0x36#7) ∧
      fetch (under false false s1) = .ok 0x123450B7#32 := by decide

theorem witness_OtherOpcodesAreUnknown :
    decode ⟨false, true⟩ 0x00000036#32 = .instr (.stub36 0) ∧
      fetch w9 = .ok 0xFFFFFFFF#32 ∧ opcodeOf 0xFFFFFFFF#32 ≠ 0x13#7 ∧ opcodeOf 0xFFFFFFFF#32 ≠ 0x33#7 ∧
      opcodeOf 0xFFFFFFFF#32 ≠ 0x37#7 ∧ opcodeOf 0xFFFFFFFF#32 ≠ 0x36#7 := by decide

theorem witness_UnknownWordLeavesTheState :
    fetch w9 = .ok 0xFFFFFFFF#32 ∧ decode w9.settings.dispatch 0xFFFFFFFF#32 = .unknown := by decide

/-- The miss at byte 0 and at byte 3. -/
theorem witness_FetchMissLeavesTheState :
    (∀ r ∈ State.reset.regions, ¬ (r.covers (State.reset.pc + BitVec.ofNat 64 0) = true ∧ r.canLoad = true)) ∧
      let s := withRegions [mem 0 [1, 2, 3] true false]
      (∀ r ∈ s.regions, ¬ (r.covers (s.pc + BitVec.ofNat 64 3) = true ∧ r.canLoad = true)) ∧
        ∀ j, j < 3 → ∃ r ∈ s.regions, r.covers (s.pc + BitVec.ofNat 64 j) = true ∧ r.canLoad = true := by decide

/-- A step of each of the three outcomes. -/
theorem witness_OutcomesOfAStep :
    step w8 = .next ((w8.writeReg 10 5).setPc 4) ∧ step w9 = .fault .unknownInstruction ∧
      step State.reset = .fault (.trap (.busMiss .fetch 0)) := ⟨step_w8, step_w9, step_reset⟩

theorem witness_PcMovesOnContinueOnly :
    (∃ r, stepReport w8 = .ok r ∧ r.outcome = .continued) ∧ ∃ r, stepReport w9 = .ok r ∧ r.outcome ≠ .continued :=
  ⟨⟨⟨.continued, (w8.writeReg 10 5).setPc 4, []⟩, by decide⟩, ⟨.unknownInstruction, w9, []⟩, by decide⟩

theorem witness_ConditionRepeatsUntilTheHostActs :
    ∃ r, stepReport State.reset = .ok r ∧ r.outcome ≠ .continued :=
  ⟨⟨.trap (.busMiss .fetch 0), State.reset, []⟩, by decide⟩

/-- Each clause: a step that continues, and a `pc` at the lower end of the last four addresses. -/
theorem witness_PcNeverWraps :
    (w8.Inv ∧ ∃ t, step w8 = .next t) ∧
      (w8.setPc (BitVec.ofNat 64 (2 ^ 64 - 4))).Inv ∧ 2 ^ 64 - 4 ≤ (w8.setPc (BitVec.ofNat 64 (2 ^ 64 - 4))).pc.toNat :=
  ⟨⟨by decide, _, step_w8⟩, by decide⟩

theorem witness_StepsWriteNoMemory : ∃ t, step w8 = .next t := ⟨_, step_w8⟩

theorem witness_StepsWriteOneRegister :
    ∃ t, step w8 = .next t ∧ t.readReg 10 ≠ w8.readReg 10 := ⟨_, step_w8, by decide⟩

theorem witness_ConfigurationIsConstant :
    (∃ t, hostMove .step w8 = some t) ∧ (∃ t, hostMove (.setContext 0 (.bytes [(0, 1)])) w8 = some t) ∧
      (∃ t, hostMove (.loadImage 0 0 [1, 2, 3, 4]) w8 = some t) ∧ (∃ t, memWrite (withRegions ram) 0x100 8 1 = .ok t) ∧
      ∃ t, exec (.addi 1 0 1) w8 = .next t :=
  ⟨⟨(w8.writeReg 10 5).setPc 4, by decide⟩, ⟨at0 1 0 0 0, by decide⟩, ⟨at0 1 2 3 4, by decide⟩,
    ⟨withRegions [mem 0x100 [1, 0, 0, 0, 0, 0, 0, 0] true true], by decide⟩, _, rfl⟩

/-! ### Witnesses: invariants, trace, host -/

theorem witness_InvariantHoldsAfterConstruction :
    construct { settings := resetSettings, regions := ram } = .ok (withRegions ram) := by decide

theorem witness_EveryMoveKeepsTheInvariant :
    (w8.Inv ∧ step w8 = .next ((w8.writeReg 10 5).setPc 4)) ∧
      hostMove (.loadImage 0 0 [1, 2, 3, 4]) w8 = some (at0 1 2 3 4) ∧
      ((withRegions ram).Inv ∧ memWrite (withRegions ram) 0x100 8 1 =
        .ok (withRegions [mem 0x100 [1, 0, 0, 0, 0, 0, 0, 0] true true])) :=
  ⟨⟨by decide, step_w8⟩, by decide⟩

/-- A constructed state, and one a move further. -/
theorem witness_ReachableStatesMeetTheInvariant : Reachable w8 ∧ Reachable ((w8.writeReg 10 5).setPc 4) :=
  have h : Reachable w8 := .constructed (c := ⟨resetSettings, w8.regions⟩) (by decide)
  ⟨h, .moved (m := .step) h (by decide)⟩

theorem witness_TraceNeverChangesExecution : SameButTrace w8 (traced ⟨true, true, true, true, true⟩ w8) :=
  ⟨rfl, rfl, rfl, rfl, rfl⟩

/-- Each clause: a gate open and closed, an event of a step, no sink, and the two flags that enable nothing. -/
theorem witness_EventsPassTheirGates :
    (gate ⟨true, false, false, true, false⟩ (.opcode 0 0x13) = true ∧
        gate ⟨true, false, false, false, false⟩ (.opcode 0 0x13) = false) ∧
      (.opcode 0 0x13 ∈ stepEvents (traced ⟨true, false, false, true, false⟩ w8)) ∧ w8.settings.sinkPresent = false ∧
      (traced ⟨false, false, false, true, true⟩ w8).settings.flags = ⟨false, false, false, true, true⟩ := by
  decide

/-- A step of each constructor. -/
theorem witness_EventsOfAContinuedStep :
    (fetch w8 = .ok 0x00500513#32 ∧ decode w8.settings.dispatch 0x00500513#32 = .instr (.addi 10 0 5) ∧
        step w8 = .next ((w8.writeReg 10 5).setPc 4)) ∧
      (fetch d8 = .ok 0x002081B3#32 ∧ decode d8.settings.dispatch 0x002081B3#32 = .instr (.add 3 1 2) ∧
        step d8 = .next (d8.setPc 4)) ∧
      (fetch s1 = .ok 0x123450B7#32 ∧ decode s1.settings.dispatch 0x123450B7#32 = .instr (.stub37 0x2468A1#25) ∧
        step s1 = .next (s1.setPc 4)) ∧
      fetch s2 = .ok 0x00000036#32 ∧ decode s2.settings.dispatch 0x00000036#32 = .instr (.stub36 0#25) ∧
        step s2 = .next (s2.setPc 4) :=
  ⟨⟨by decide, by decide, step_w8⟩, ⟨by decide, by decide, step_d8⟩, ⟨by decide, by decide, step_s1⟩, by decide,
    by decide, step_s2⟩

theorem witness_EventsOfAReportedCondition :
    (fetch w9 = .ok 0xFFFFFFFF#32 ∧ decode w9.settings.dispatch 0xFFFFFFFF#32 = .unknown) ∧
      fetch State.reset = .error (.busMiss .fetch 0) := by decide

theorem witness_RegisterNames : regName true 8 = regName true 8 ∧ regName false 31 = "x31" := by decide

/-- `13 05` in one region and `FF FF` in the next, so that a fetch straddles them. -/
def twoRegions : State := withRegions [mem 0 [0x13, 0x05] true false, mem 2 [0xFF, 0xFF] true false]

/-- All four bytes in region `k`, and two of them in another. -/
theorem witness_HostPatchIsSeenByTheNextFetch :
    (setContext 1 (.bytes [(0, 0x50)]) twoRegions =
          some (withRegions [mem 0 [0x13, 0x05] true false, mem 2 [0x50, 0x00] true false]) ∧
        ∀ i, i < 4 → (resolve twoRegions.regions .load (twoRegions.pc + BitVec.ofNat 64 i)).isSome = true) ∧
    setContext 0 (.bytes [(0, 0x13), (1, 5), (2, 0x50)]) w9 = some w8 ∧
      ∀ i, i < 4 → resolve w9.regions .load (w9.pc + BitVec.ofNat 64 i) = some ⟨0, mem 0 [0xFF, 0xFF, 0xFF, 0xFF] true false⟩ := by
  decide

theorem witness_LoadedInstructionRuns :
    w9.Inv ∧ (Instr.addi 10 0 5).wf = true ∧ (Instr.addi 10 0 5).isStub = false ∧
      (∀ j, j < 4 → resolve w9.regions .load (w9.pc + BitVec.ofNat 64 j) = some ⟨0, mem 0 [0xFF, 0xFF, 0xFF, 0xFF] true false⟩) ∧
      loadImage 0 (w9.pc - (mem 0 [0xFF, 0xFF, 0xFF, 0xFF] true false).base).toNat (bytesOfWord (encode (.addi 10 0 5))) w9 =
        some w8 ∧
      exec (.addi 10 0 5) w8 = .next (w8.writeReg 10 5) :=
  ⟨by decide, by decide, by decide, by decide, by decide, of_nextOf (by decide)⟩

/-- A table row of each kind, and the last `pc` that has room for a word. -/
theorem witness_FetchWordRuns :
    State.reset.pc.toNat + 4 ≤ 2 ^ 64 - 1 ∧ (State.reset.setPc (BitVec.ofNat 64 (2 ^ 64 - 5))).pc.toNat + 4 ≤ 2 ^ 64 - 1 ∧
      State.reset.settings.dispatch.legacyOpcodeOnly = false ∧ decodeTableWord 32 0x13 = some (.addi 0 0 0) ∧
      decodeTableWord 32 0x36 = some (.stub36 0) ∧
      exec (.stub36 0) (State.reset.withFetchWord 32 0x36) = .next (State.reset.withFetchWord 32 0x36) :=
  ⟨by decide, by decide, by decide, by decide, by decide, rfl⟩

/-- A run that ends early, and one that uses its one step. -/
theorem witness_HaltingRunEndsAtTheFirstCondition :
    (runHost haltOnNonContinue 5 (HostRun.start w9)).toOption.map (fun r => r.outcomes) = some [.unknownInstruction] ∧
      (runHost haltOnNonContinue 1 (HostRun.start w8)).toOption.map (fun r => r.outcomes) = some [.continued] := by decide

theorem witness_FixedCountRunTakesItsSteps : 0 ≤ 0 ∧ 3 ≤ 5 := by decide

/-- Accepted at the bound and refused past it. -/
theorem witness_AssemblerRefusesWideImmediates :
    assemble (.li 1 (-2048)) = some (.addi 1 0 (BitVec.ofInt 64 (-2048))) ∧ assemble (.li 1 (-2049)) = none := by decide

end Sys2Proof.Tests
end

section
/-!
PROOFS. The register file (spec/10_state.md R31, R32) and what the instructions read and write of it (R35).
-/

namespace Sys2Proof.Machine

/-! ### What one register write leaves -/

/-- A register write is the write of one register, in the terms of the claims (10_state.md R32, R33). -/
theorem writeReg_onlyWrites (s : State) (rd : Reg) (v : Word) : OnlyWrites rd v s (s.writeReg rd v) :=
  ⟨fun hrd => by rw [readReg_writeReg_same, if_neg hrd], readReg_zero _, fun _ hr => readReg_writeReg_other s v hr⟩

/-- What the destination holds afterwards is fixed by the written value alone, for `x0` too. -/
theorem OnlyWrites.readReg_rd {rd : Reg} {v : Word} {s t : State} (h : OnlyWrites rd v s t) :
    t.readReg rd = if rd = 0 then 0 else v := by
  obtain ⟨hv, hzero, -⟩ := h
  split_ifs with hrd
  · rw [hrd, hzero]
  · exact hv hrd

theorem OnlyWrites.readReg_other {rd : Reg} {v : Word} {s t : State} (h : OnlyWrites rd v s t) {r : Reg}
    (hr : r ≠ rd) : t.readReg r = s.readReg r := by
  obtain ⟨-, -, hother⟩ := h
  exact hother r hr

/-! ### What each instruction reads and writes -/

theorem exec_addi_onlyWrites {rd rs1 : Reg} {imm : Word} {s t : State} (h : exec (.addi rd rs1 imm) s = .next t) :
    OnlyWrites rd (s.readReg rs1 + imm) s t := by
  rw [exec_addi, Host.Outcome.next.injEq] at h
  exact h ▸ writeReg_onlyWrites ..

theorem exec_add_onlyWrites {rd rs1 rs2 : Reg} {s t : State} (h : exec (.add rd rs1 rs2) s = .next t) :
    OnlyWrites rd (s.readReg rs1 + s.readReg rs2) s t := by
  rw [exec_add, Host.Outcome.next.injEq] at h
  exact h ▸ writeReg_onlyWrites ..

/-- A placeholder's next state is the state it ran in (41_integer_alu.md R166). -/
theorem exec_stub {i : Instr} (hi : i.isStub = true) (s : State) : exec i s = .next s := by
  cases i with
  | addi | add => simp [Instr.isStub] at hi
  | stub37 | stub36 => rfl

/-- `addi r, x0, v` puts any value into any register but `x0`. -/
theorem exec_addi_loads {r : Reg} (hr : r ≠ 0) (v : Word) (s : State) :
    ∃ t, exec (.addi r 0 v) s = .next t ∧ t.readReg r = v :=
  ⟨_, exec_addi .., by simp [readReg_writeReg_same, hr]⟩

/-- `add q, r, x0` copies any register into any register but `x0`. -/
theorem exec_add_copies {q : Reg} (hq : q ≠ 0) (r : Reg) (s : State) :
    ∃ u, exec (.add q r 0) s = .next u ∧ u.readReg q = s.readReg r :=
  ⟨_, exec_add .., by simp [readReg_writeReg_same, hq]⟩

/-! ### The statements -/

/-- Settles O1: construction writes 0 everywhere, and the read-after-write laws say the rest. -/
theorem registerReadAfterWrite : Obligations.RegisterReadAfterWrite := by
  refine ⟨fun c s hc r => ?_, fun s r v => ?_⟩
  · obtain ⟨-, rfl⟩ := construct_ok.mp hc
    exact readReg_of_zero rfl r
  · exact ⟨readReg_writeReg_same s r v, readReg_zero _, fun _ hq => readReg_writeReg_other s v hq,
      writeReg_pc .., writeReg_regions .., writeReg_settings ..⟩

/-- Settles O25: ADDI and ADD write `rd` alone, with a sum in which only their sources stand; `x0` has no storage. -/
theorem registersEachInstructionAccesses : Obligations.RegistersEachInstructionAccesses := by
  refine ⟨fun rd rs1 imm s s' t t' h1 ht ht' => ?_, fun rd rs1 rs2 s s' t t' h1 h2 ht ht' => ?_,
    fun i s t hi ht r => ?_, fun r v s hr => ?_, fun _ _ t _ => readReg_zero t⟩
  · have hw := exec_addi_onlyWrites ht
    exact ⟨by rw [hw.readReg_rd, (exec_addi_onlyWrites ht').readReg_rd, h1], fun _ hr => hw.readReg_other hr⟩
  · have hw := exec_add_onlyWrites ht
    exact ⟨by rw [hw.readReg_rd, (exec_add_onlyWrites ht').readReg_rd, h1, h2], fun _ hr => hw.readReg_other hr⟩
  · rw [exec_stub hi, Host.Outcome.next.injEq] at ht
    rw [ht]
  · obtain ⟨t, ht, hread⟩ := exec_addi_loads hr v s
    exact ⟨t, ht, hread, fun q hq => hread ▸ exec_add_copies hq r t⟩

end Sys2Proof.Machine
end

section
/-!
PROOFS. The configuration is constant for a run, and no instruction reads it (spec/10_state.md R43).
-/

namespace Sys2Proof

/-- What of a region the configuration fixes: everything but its context (20_memory.md R60, R63). -/
def Region.layout (r : Region) : Word × Word × Bool × Bool := (r.base, r.length, r.canLoad, r.canStore)

@[simp] theorem Region.layout_withCtx (r : Region) (c : Context) : { r with ctx := c }.layout = r.layout := rfl

end Sys2Proof

namespace Sys2Proof.Machine

/-- The second state has the configuration of the first: `INITIAL_PC`, the flags, the sink and the dispatch, and every
region's place, base, length and capabilities (10_state.md R43). -/
def SameConfiguration (s t : State) : Prop :=
  t.settings = s.settings ∧ t.regions.map Region.layout = s.regions.map Region.layout

theorem SameConfiguration.refl (s : State) : SameConfiguration s s := ⟨rfl, rfl⟩

/-! ### What can change a region's context -/

@[simp] theorem storeInto_layout (r : Region) (ws : List (Word × Byte)) : (storeInto r ws).layout = r.layout := by
  obtain ⟨hbase, hlength, hload, hstore⟩ := storeInto_frame r ws
  simp only [Region.layout, hbase, hlength, hload, hstore]

theorem storeBytes_map_layout (rs : List Region) (ws : List ((Word × Hit) × Byte)) :
    (storeBytes rs ws).map Region.layout = rs.map Region.layout :=
  List.ext_getElem? fun k => by simp [storeBytes_getElem?, Function.comp_def]

theorem modifyContext_map_layout (rs : List Region) (k : Nat) (c : Context) :
    (rs.modify k (fun reg => { reg with ctx := c })).map Region.layout = rs.map Region.layout :=
  List.ext_getElem? fun j => by simp [modifyContext_getElem?, Function.comp_def, apply_ite Region.layout]

/-! ### The moves -/

theorem setContext_sameConfiguration {k : Nat} {c : Context} {s t : State} (h : setContext k c s = some t) :
    SameConfiguration s t := by
  obtain ⟨reg, -, -, -, rfl⟩ := setContext_some.mp h
  exact ⟨rfl, modifyContext_map_layout ..⟩

theorem loadImage_sameConfiguration {k o : Nat} {image : List Byte} {s t : State}
    (h : loadImage k o image s = some t) : SameConfiguration s t := by
  obtain ⟨reg, m, -, -, -, hset⟩ := loadImage_some.mp h
  exact setContext_sameConfiguration hset

/-- A step changes no region and no setting at all. -/
theorem step_next_frame {s t : State} (h : step s = .next t) : t.regions = s.regions ∧ t.settings = s.settings := by
  obtain ⟨rd, v, rfl⟩ := step_next_eq h
  simp

/-- The state after the host's step: the step's next state, or after a condition the state as it was (40_step_engine.md
R142, 60_exceptions.md R206). -/
theorem hostMove_step_some {s t : State} (h : hostMove .step s = some t) : step s = .next t ∨ t = s := by
  rcases stepReport_cases s with ⟨u, hu, hreport⟩ | ⟨f, -, hreport⟩
  · simp only [hostMove, hreport, resume, Option.some.injEq] at h
    exact .inl (h ▸ hu)
  · simp only [hostMove, hreport, resume, Option.some.injEq] at h
    exact .inr h.symm

theorem hostMove_sameConfiguration {m : HostMove} {s t : State} (h : hostMove m s = some t) :
    SameConfiguration s t := by
  cases m with
  | step =>
    rcases hostMove_step_some h with hnext | rfl
    · obtain ⟨hregions, hsettings⟩ := step_next_frame hnext
      exact ⟨hsettings, by rw [hregions]⟩
    · exact .refl t
  | setContext k c => exact setContext_sameConfiguration h
  | loadImage k o image => exact loadImage_sameConfiguration h

/-- Everything a successful store can do (20_memory.md R68). -/
theorem memWrite_ok {s t : State} {a v : Word} {n : Nat} :
    memWrite s a n v = .ok t ↔ ∃ rs, routerStore s.regions a v (8 * n) = .ok rs ∧ t = s.setRegions rs := by
  unfold memWrite
  cases routerStore s.regions a v (8 * n) <;> simp [eq_comm]

theorem memWrite_sameConfiguration {s t : State} {a v : Word} {n : Nat} (h : memWrite s a n v = .ok t) :
    SameConfiguration s t := by
  obtain ⟨rs, hstore, rfl⟩ := memWrite_ok.mp h
  obtain ⟨-, hits, -, rfl⟩ := routerStore_ok.mp hstore
  exact ⟨rfl, storeBytes_map_layout ..⟩

/-! ### No instruction reads the configuration -/

/-- The state with another configuration and other contexts. -/
def State.reconfigure (s : State) (st : Settings) (rs : List Region) : State :=
  { s with settings := st, regions := rs }

@[simp] theorem readReg_reconfigure (s : State) (st : Settings) (rs : List Region) (r : Reg) :
    (s.reconfigure st rs).readReg r = s.readReg r := readReg_congr rfl r

theorem writeReg_reconfigure (s : State) (st : Settings) (rs : List Region) (r : Reg) (v : Word) :
    (s.reconfigure st rs).writeReg r v = (s.writeReg r v).reconfigure st rs := by
  unfold State.writeReg
  split <;> rfl

/-- An instruction does the same to the registers and `pc` under every configuration, and leaves the configuration it
ran under. -/
theorem exec_reconfigure {i : Instr} {s t : State} (st : Settings) (rs : List Region) (h : exec i s = .next t) :
    exec i (s.reconfigure st rs) = .next (t.reconfigure st rs) := by
  cases i with
  | addi rd rs1 imm =>
    rw [exec_addi, Host.Outcome.next.injEq] at h
    rw [exec_addi, readReg_reconfigure, writeReg_reconfigure, h]
  | add rd rs1 rs2 =>
    rw [exec_add, Host.Outcome.next.injEq] at h
    rw [exec_add, readReg_reconfigure, readReg_reconfigure, writeReg_reconfigure, h]
  | stub37 | stub36 =>
    rw [exec_stub rfl, Host.Outcome.next.injEq] at h
    rw [exec_stub rfl, h]

/-! ### The statement -/

/-- Settles O41: the host's moves and the router's stores change contexts only, and an instruction runs the same way
under every configuration. -/
theorem configurationIsConstant : Obligations.ConfigurationIsConstant :=
  ⟨fun _ _ _ h => hostMove_sameConfiguration h, fun _ _ _ _ _ h => memWrite_sameConfiguration h,
    fun _ _ _ st rs h => exec_reconfigure st rs h⟩

end Sys2Proof.Machine
end

section
/-!
PROOFS. The memory bus router on one byte: which of two overlapping regions serves it (spec/20_memory.md R64, R79) and
what a one-byte access then does (R66, R68).
-/

namespace Sys2Proof.Machine

/-! ### Resolution at the head of the list -/

theorem serves_iff {r : Region} {cap : Capability} {a : Word} :
    r.serves cap a = true ↔ r.covers a = true ∧ r.has cap = true := by
  simp [Region.serves]

/-- A region without the capability is skipped wherever it lies (20_memory.md R64). -/
theorem serves_of_not_has {r : Region} {cap : Capability} (h : r.has cap = false) (a : Word) :
    r.serves cap a = false := by
  simp [Region.serves, h]

theorem resolve_cons_of_serves {r : Region} {cap : Capability} {a : Word} (h : r.serves cap a = true)
    (rs : List Region) : resolve (r :: rs) cap a = some ⟨0, r⟩ :=
  resolve_eq_some.mpr ⟨rfl, h, fun _ hj => absurd hj (Nat.not_lt_zero _)⟩

theorem resolve_cons_cons_of_serves {q r : Region} {cap : Capability} {a : Word} (hq : q.serves cap a = false)
    (hr : r.serves cap a = true) (rs : List Region) : resolve (q :: r :: rs) cap a = some ⟨1, r⟩ := by
  refine resolve_eq_some.mpr ⟨rfl, hr, fun j hj p hp => ?_⟩
  obtain rfl : j = 0 := Nat.lt_one_iff.mp hj
  obtain rfl : q = p := Option.some.inj hp
  exact hq

/-! ### One-byte accesses -/

@[simp] theorem byteAddrs_one (a : Word) : byteAddrs a 1 = [a] := by simp [byteAddrs]

@[simp] theorem bytesLE_one (v : Word) : bytesLE v 1 = [v.setWidth 8] := by simp [bytesLE, byteOf]

@[simp] theorem composeLE_singleton (b : Byte) : composeLE [b] = b.setWidth 64 := by simp [composeLE]

theorem resolveAll_singleton {rs : List Region} {cap : Capability} {a : Word} {h : Hit}
    (hr : resolve rs cap a = some h) (kind : AccessKind) : resolveAll rs cap kind [a] = .ok [(a, h)] :=
  resolveAll_ok.mpr ⟨rfl, fun p hp => by rw [List.mem_singleton.mp hp, hr]⟩

/-- A one-byte load is the load capability of the region the byte resolves to (20_memory.md R66). -/
theorem routerLoad_byte {rs : List Region} {a : Word} {h : Hit} (hr : resolve rs .load a = some h)
    (kind : AccessKind) : routerLoad rs kind a 8 = .ok ((h.region.loadAt a).setWidth 64) :=
  routerLoad_ok.mpr ⟨rfl, [(a, h)], by simpa using resolveAll_singleton hr kind, by simp⟩

/-- A one-byte store changes the region the byte resolves to, and no other (20_memory.md R68). -/
theorem routerStore_byte {rs : List Region} {a : Word} {h : Hit} (hr : resolve rs .store a = some h) (v : Word) :
    routerStore rs a v 8 = .ok (rs.modify h.index (fun r => r.storeAt a (v.setWidth 8))) :=
  routerStore_ok.mpr ⟨rfl, [(a, h)], by simpa using resolveAll_singleton hr .store, by simp [storeBytes]⟩

/-! ### The statement -/

/-- Settles O7: the load resolves to index 0, and the store, for which the first region lacks the capability, to
index 1. -/
theorem overlapIsServedByCapability : Obligations.OverlapIsServedByCapability := by
  intro r1 r2 a v hload1 hstore1 _ hstore2 hcovers1 hcovers2
  have hserves1 : r1.serves .load a = true := serves_iff.mpr ⟨hcovers1, hload1⟩
  have hskip : r1.serves .store a = false := serves_of_not_has (cap := .store) hstore1 a
  have hserves2 : r2.serves .store a = true := serves_iff.mpr ⟨hcovers2, hstore2⟩
  exact ⟨routerLoad_byte (resolve_cons_of_serves hserves1 _) .load,
    routerStore_byte (resolve_cons_cons_of_serves hskip hserves2 _) v⟩

end Sys2Proof.Machine
end

section
/-!
PROOFS. The fields of a word as numbers (spec/30_encoding.md R102) and the sign extension of its immediate (R105).
-/

namespace Sys2Proof

/-! ### Fields as numbers (R102) -/

/-- `w[start+n-1 : start]` as a number. -/
theorem field_toNat (w : InstrWord) (start n : Nat) :
    (w.extractLsb' start n).toNat = w.toNat / 2 ^ start % 2 ^ n := by
  rw [BitVec.extractLsb'_toNat, Nat.shiftRight_eq_div_pow]

/-- A field that ends at bit 31 is what the shift leaves: there is nothing above it to cut off. -/
theorem topField_toNat (w : InstrWord) {start n : Nat} (h : start + n = 32) :
    (w.extractLsb' start n).toNat = w.toNat / 2 ^ start := by
  have hlt : w.toNat / 2 ^ start < 2 ^ n := Nat.div_lt_of_lt_mul (by rw [← pow_add, h]; exact w.isLt)
  rw [field_toNat, Nat.mod_eq_of_lt hlt]

theorem opcodeOf_toNat (w : InstrWord) : (opcodeOf w).toNat = w.toNat % 2 ^ 7 := by
  rw [opcodeOf, field_toNat, pow_zero, Nat.div_one]

/-! ### The immediate (R105) -/

/-- Sign extension keeps the value read as signed. -/
theorem immOf_toInt (w : InstrWord) : (immOf w).toInt = (w.extractLsb' 20 12).toInt :=
  BitVec.toInt_signExtend_of_le (by decide)

/-- The immediate by the sign of its field, in two's complement. -/
theorem immOf_toInt_eq_ite (w : InstrWord) :
    (immOf w).toInt =
      if w.toNat / 2 ^ 20 < 2 ^ 11 then (w.toNat / 2 ^ 20 : Int) else (w.toNat / 2 ^ 20 : Int) - 2 ^ 12 := by
  rw [immOf_toInt, BitVec.toInt_eq_toNat_cond, topField_toNat w rfl]
  split_ifs <;> omega

/-- The immediate's low 12 bits are its field. -/
theorem immOf_low (w : InstrWord) : (immOf w).extractLsb' 0 12 = w.extractLsb' 20 12 := by
  rw [← BitVec.setWidth_eq_extractLsb' (by decide)]
  exact imm12Of_signExtend _

/-- The field's sign is the word's top bit. -/
theorem immField_msb (w : InstrWord) : (w.extractLsb' 20 12).msb = w.getLsbD 31 := by
  simp [BitVec.msb_eq_getLsbD_last]

/-- Every bit of the immediate above its field is the word's top bit. -/
theorem immOf_high (w : InstrWord) {j : Nat} (hlow : 12 ≤ j) (hhigh : j < 64) :
    (immOf w).getLsbD j = w.getLsbD 31 := by
  rw [immOf, BitVec.getLsbD_signExtend, decide_eq_true hhigh, Bool.true_and, if_neg (Nat.not_lt.mpr hlow),
    immField_msb]

/-- Every word's immediate is one that an encoding can hold. -/
theorem immFits_immOf (w : InstrWord) : immFits (immOf w) = true := immFits_signExtend _

/-! ### The statements -/

/-- Settles O14: each field is a quotient by a power of 2 cut to its width, and the immediate its field's value in two's
complement. -/
theorem fieldsOfEveryWord : Obligations.FieldsOfEveryWord := fun w =>
  ⟨opcodeOf_toNat w, field_toNat w 7 5, field_toNat w 12 3, field_toNat w 15 5, field_toNat w 20 5,
    topField_toNat w rfl, immOf_toInt_eq_ite w⟩

/-- Settles O15: the field below, copies of its sign above, and so a signed value of 12 bits. -/
theorem immediateIsSignExtended : Obligations.ImmediateIsSignExtended := fun w =>
  ⟨immOf_low w, fun _ hlow hhigh => immOf_high w hlow hhigh, of_decide_eq_true (immFits_immOf w)⟩

end Sys2Proof
end

section
/-!
PROOFS. The opcode selects the family, and any other opcode is an unknown instruction (spec/30_encoding.md R107).
-/

namespace Sys2Proof

/-! ### Selection fixes the opcode -/

theorem opcodeOf_of_selectsAddi {m : DispatchMode} {w : InstrWord} (h : selectsAddi m w = true) :
    opcodeOf w = 0x13#7 := by
  rw [selectsAddi, Bool.and_eq_true] at h
  exact eq_of_beq h.1

theorem opcodeOf_of_selectsAdd {m : DispatchMode} {w : InstrWord} (h : selectsAdd m w = true) :
    opcodeOf w = 0x33#7 := by
  rw [selectsAdd, Bool.and_eq_true] at h
  exact eq_of_beq h.1

theorem opcodeOf_of_selectsStub {m : DispatchMode} {op : BitVec 7} {w : InstrWord}
    (h : selectsStub m op w = true) : opcodeOf w = op := by
  rw [selectsStub, Bool.and_eq_true] at h
  exact eq_of_beq h.2

/-- A word outside the four families is UNKNOWN under every setting. -/
theorem decode_unknown_of_opcode (m : DispatchMode) {w : InstrWord} (haddi : opcodeOf w ≠ 0x13#7)
    (hadd : opcodeOf w ≠ 0x33#7) (h37 : opcodeOf w ≠ 0x37#7) (h36 : opcodeOf w ≠ 0x36#7) :
    decode m w = .unknown :=
  decode_unknown.mpr
    ⟨eq_false_of_ne_true (mt opcodeOf_of_selectsAddi haddi), eq_false_of_ne_true (mt opcodeOf_of_selectsAdd hadd),
      eq_false_of_ne_true (mt opcodeOf_of_selectsStub h37), eq_false_of_ne_true (mt opcodeOf_of_selectsStub h36)⟩

end Sys2Proof

namespace Sys2Proof.Machine

/-! ### A step on an UNKNOWN word (40_step_engine.md R141) -/

theorem step_of_unknown {s : State} {w : InstrWord} (hf : fetch s = .ok w)
    (hd : decode s.settings.dispatch w = .unknown) : step s = .fault .unknownInstruction :=
  step_fault.mpr (.inr ⟨w, hf, hd, rfl⟩)

/-- The Error event of an UNKNOWN word is emitted exactly if its gate is open; the Opcode event before it is another. -/
theorem errorEvent_mem_of_unknown {s : State} {w : InstrWord} (hf : fetch s = .ok w)
    (hd : decode s.settings.dispatch w = .unknown) :
    .error (.unknown s.pc w) ∈ stepEvents s ↔
      s.settings.sinkPresent = true ∧ s.settings.flags.errorTrace = true := by
  rw [stepEvents_of_unknown hf hd, List.mem_append, mem_emit, mem_emit]
  simp [opcodeEvent, gate]

/-! ### The statement -/

/-- Settles O32: what selects an instruction fixes the opcode, so a word with any other opcode is UNKNOWN, and the step
on it reports that with the Error event behind its gate. -/
theorem otherOpcodesAreUnknown : Obligations.OtherOpcodesAreUnknown := by
  refine ⟨fun m w i h => ?_, fun s w hf haddi hadd h37 h36 => ?_⟩
  · obtain ⟨hsel, rfl⟩ | ⟨hsel, rfl⟩ | ⟨hsel, rfl⟩ | ⟨hsel, rfl⟩ := decode_instr.mp h
    · exact opcodeOf_of_selectsAddi hsel
    · exact opcodeOf_of_selectsAdd hsel
    · exact opcodeOf_of_selectsStub hsel
    · exact opcodeOf_of_selectsStub hsel
  · have hd := decode_unknown_of_opcode s.settings.dispatch haddi hadd h37 h36
    exact ⟨step_of_unknown hf hd, errorEvent_mem_of_unknown hf hd⟩

end Sys2Proof.Machine
end

section
/-!
PROOFS. The state after construction (spec/70_reset_and_hazards.md R240).
-/

namespace Sys2Proof.Machine

/-- Settles O2: an accepted configuration gives `initialState`, whose register file is zero and whose other items are the
configuration's. -/
theorem constructionGivesResetState : Obligations.ConstructionGivesResetState := by
  refine ⟨fun c s hc => ?_, rfl⟩
  obtain ⟨-, rfl⟩ := construct_ok.mp hc
  exact ⟨readReg_of_zero rfl, rfl, rfl, rfl⟩

end Sys2Proof.Machine
end

section
/-!
PROOFS. Encoding and decoding are inverse, with every operand at every value (spec/30_encoding.md R111, R116).
-/

namespace Sys2Proof

/-! ### What the encoder's words select, and their operand fields -/

theorem selectsAddi_encode (m : DispatchMode) (rd rs1 : Reg) (imm : Word) :
    selectsAddi m (encode (.addi rd rs1 imm)) = true := by
  simp [selectsAddi, encode]

theorem selectsAdd_encode (m : DispatchMode) (rd rs1 rs2 : Reg) :
    selectsAdd m (encode (.add rd rs1 rs2)) = true := by
  simp [selectsAdd, encode]

theorem selectsStub_append {m : DispatchMode} (h : m.stubPlaceholders = true) (g : BitVec 25) (op : BitVec 7) :
    selectsStub m op (g ++ op : BitVec (25 + 7)) = true := by
  simp [selectsStub, h]

theorem rdOf_encode_addi (rd rs1 : Reg) (imm : Word) : rdOf (encode (.addi rd rs1 imm)) = rd :=
  regBits_inj (rdOf_encodeI ..)

theorem rs1Of_encode_addi (rd rs1 : Reg) (imm : Word) : rs1Of (encode (.addi rd rs1 imm)) = rs1 :=
  regBits_inj (rs1Of_encodeI ..)

theorem immOf_encode_addi (rd rs1 : Reg) {imm : Word} (h : immFits imm = true) :
    immOf (encode (.addi rd rs1 imm)) = imm :=
  (immOf_encodeI ..).trans (signExtend_imm12Of h)

theorem rdOf_encode_add (rd rs1 rs2 : Reg) : rdOf (encode (.add rd rs1 rs2)) = rd :=
  regBits_inj (rdOf_encodeR ..)

theorem rs1Of_encode_add (rd rs1 rs2 : Reg) : rs1Of (encode (.add rd rs1 rs2)) = rs1 :=
  regBits_inj (rs1Of_encodeR ..)

theorem rs2Of_encode_add (rd rs1 rs2 : Reg) : rs2Of (encode (.add rd rs1 rs2)) = rs2 :=
  regBits_inj (rs2Of_encodeR ..)

/-! ### The statements -/

/-- Settles O18: the encoded word selects its own row, and each field of it is the operand that was put there; an
immediate that fits survives the cut to 12 bits. -/
theorem decodeInvertsEncode : Obligations.DecodeInvertsEncode := by
  intro i m hwf hstub
  rw [decode_instr]
  cases i with
  | addi rd rs1 imm =>
    exact .inl ⟨selectsAddi_encode .., by rw [rdOf_encode_addi, rs1Of_encode_addi, immOf_encode_addi rd rs1 hwf]⟩
  | add rd rs1 rs2 =>
    exact .inr (.inl ⟨selectsAdd_encode .., by rw [rdOf_encode_add, rs1Of_encode_add, rs2Of_encode_add]⟩)
  | stub37 g =>
    exact .inr (.inr (.inl ⟨selectsStub_append (hstub rfl) g _, congrArg Instr.stub37 (ignoredOf_append ..).symm⟩))
  | stub36 g =>
    exact .inr (.inr (.inr ⟨selectsStub_append (hstub rfl) g _, congrArg Instr.stub36 (ignoredOf_append ..).symm⟩))

/-- Settles O19: strict selection fixes opcode and funct fields, so a word is the layout of its own operands. -/
theorem encodeInvertsStrictDecode : Obligations.EncodeInvertsStrictDecode := by
  intro stub w i h
  obtain ⟨hsel, rfl⟩ | ⟨hsel, rfl⟩ | ⟨hsel, rfl⟩ | ⟨hsel, rfl⟩ := decode_instr.mp h
  · obtain ⟨hop, hf3⟩ : opcodeOf w = 0x13#7 ∧ funct3Of w = 0b000#3 := by simpa [selectsAddi] using hsel
    refine ⟨immFits_immOf w, ?_⟩
    rw [encode, immOf, imm12Of_signExtend, regBits_rs1Of, regBits_rdOf, ← hop, ← hf3, encodeI_fields]
  · obtain ⟨hop, hf3, hf7⟩ : opcodeOf w = 0x33#7 ∧ funct3Of w = 0b000#3 ∧ funct7Of w = 0b0000000#7 := by
      simpa [selectsAdd] using hsel
    refine ⟨rfl, ?_⟩
    rw [encode, regBits_rs2Of, regBits_rs1Of, regBits_rdOf, ← hop, ← hf3, ← hf7, encodeR_fields]
  · exact ⟨rfl, by rw [encode, ← opcodeOf_of_selectsStub hsel, append_fields]⟩
  · exact ⟨rfl, by rw [encode, ← opcodeOf_of_selectsStub hsel, append_fields]⟩

end Sys2Proof
end

section
/-!
PROOFS. The encoders as shifts and ORs (spec/30_encoding.md R116).
-/

namespace Sys2Proof

/-- The I-type layout as shifts and ORs of its widened fields (R104, R116). -/
theorem encodeI_eq_shifts (imm : BitVec 12) (rs1 : BitVec 5) (f3 : BitVec 3) (rd : BitVec 5) (op : BitVec 7) :
    encodeI imm rs1 f3 rd op =
      (imm.setWidth 32 <<< 20) ||| (rs1.setWidth 32 <<< 15) ||| (f3.setWidth 32 <<< 12) |||
        (rd.setWidth 32 <<< 7) ||| op.setWidth 32 := by
  refine BitVec.eq_of_getLsbD_eq fun j hj => ?_
  rw [encodeI_getLsbD]
  simp only [BitVec.getLsbD_or, BitVec.getLsbD_shiftLeft, BitVec.getLsbD_setWidth]
  grind

/-- The R-type layout as shifts and ORs of its widened fields (R103, R116). -/
theorem encodeR_eq_shifts (f7 : BitVec 7) (rs2 rs1 : BitVec 5) (f3 : BitVec 3) (rd : BitVec 5) (op : BitVec 7) :
    encodeR f7 rs2 rs1 f3 rd op =
      (f7.setWidth 32 <<< 25) ||| (rs2.setWidth 32 <<< 20) ||| (rs1.setWidth 32 <<< 15) |||
        (f3.setWidth 32 <<< 12) ||| (rd.setWidth 32 <<< 7) ||| op.setWidth 32 := by
  refine BitVec.eq_of_getLsbD_eq fun j hj => ?_
  rw [encodeR_getLsbD]
  simp only [BitVec.getLsbD_or, BitVec.getLsbD_shiftLeft, BitVec.getLsbD_setWidth]
  grind

theorem regBits_setWidth (r : Reg) : (regBits r).setWidth 32 = BitVec.ofNat 32 r.val :=
  BitVec.eq_of_toNat_eq (by simp [regBits])

/-- Cutting to 12 bits is masking with 0xFFF. -/
theorem imm12Of_setWidth (imm : Word) : (imm12Of imm).setWidth 32 = (imm &&& 0xFFF#64).setWidth 32 := by
  refine BitVec.eq_of_toNat_eq ?_
  rw [imm12Of, BitVec.toNat_setWidth, BitVec.toNat_setWidth, BitVec.toNat_setWidth, BitVec.toNat_and,
    show (0xFFF#64).toNat = 2 ^ 12 - 1 from rfl, Nat.and_two_pow_sub_one_eq_mod]

/-- Settles O20: the two layouts are the rule's ORs, and the widened operands are the rule's operands. -/
theorem encodersAreTheRulesShifts : Obligations.EncodersAreTheRulesShifts := by
  refine ⟨fun rd rs1 imm => ?_, fun rd rs1 rs2 => ?_, by decide⟩
  · rw [encode, encodeI_eq_shifts, regBits_setWidth, regBits_setWidth, imm12Of_setWidth]
    rfl
  · rw [encode, encodeR_eq_shifts, regBits_setWidth, regBits_setWidth, regBits_setWidth]
    rfl

end Sys2Proof
end

section
/-!
PROOFS. Which words decode to which instruction (spec/30_encoding.md R101, R108 to R111).
-/

namespace Sys2Proof

/-! ### Selection by mask and match (R108 to R110) -/

theorem selectsAddi_iff_mask {legacy stub : Bool} {w : InstrWord} :
    selectsAddi ⟨legacy, stub⟩ w = true ↔
      w &&& (if legacy then 0x0000007F#32 else 0x0000707F#32) = 0x00000013#32 := by
  cases legacy
  · simpa [selectsAddi] using addi_mask.symm
  · have hsel : selectsAddi ⟨true, stub⟩ w = true ↔ opcodeOf w = 0x13#7 := by simp [selectsAddi]
    exact hsel.trans opcode_mask.symm

theorem selectsAdd_iff_mask {legacy stub : Bool} {w : InstrWord} :
    selectsAdd ⟨legacy, stub⟩ w = true ↔
      w &&& (if legacy then 0x0000007F#32 else 0xFE00707F#32) = 0x00000033#32 := by
  cases legacy
  · simpa [selectsAdd] using add_mask.symm
  · have hsel : selectsAdd ⟨true, stub⟩ w = true ↔ opcodeOf w = 0x33#7 := by simp [selectsAdd]
    exact hsel.trans opcode_mask.symm

theorem selectsStub_iff {m : DispatchMode} {op : BitVec 7} {w : InstrWord} :
    selectsStub m op w = true ↔ m.stubPlaceholders = true ∧ opcodeOf w = op := by
  simp [selectsStub]

theorem selectsStub_iff_mask {legacy stub : Bool} {op : BitVec 7} {w : InstrWord} :
    selectsStub ⟨legacy, stub⟩ op w = true ↔
      stub = true ∧ w &&& 0x0000007F#32 = (0#25 ++ op : BitVec (25 + 7)) := by
  rw [selectsStub_iff, opcode_mask]

/-- Settles O16: each row's mask and match is the selection the decoder makes. -/
theorem decodeFollowsTheOpcodeTable : Obligations.DecodeFollowsTheOpcodeTable := by
  intro legacy stub w isAddi isAdd isStub37 isStub36
  refine ⟨fun h => ?_, fun h => ?_, fun h => ?_, fun h => ?_, fun hAddi hAdd h37 h36 => ?_⟩
  · exact decode_instr.mpr (.inl ⟨selectsAddi_iff_mask.mpr h, rfl⟩)
  · exact decode_instr.mpr (.inr (.inl ⟨selectsAdd_iff_mask.mpr h, rfl⟩))
  · exact decode_instr.mpr (.inr (.inr (.inl ⟨selectsStub_iff_mask.mpr h, rfl⟩)))
  · exact decode_instr.mpr (.inr (.inr (.inr ⟨selectsStub_iff_mask.mpr h, rfl⟩)))
  · exact decode_unknown.mpr
      ⟨eq_false_of_ne_true (mt selectsAddi_iff_mask.mp hAddi), eq_false_of_ne_true (mt selectsAdd_iff_mask.mp hAdd),
        eq_false_of_ne_true (mt selectsStub_iff_mask.mp h37), eq_false_of_ne_true (mt selectsStub_iff_mask.mp h36)⟩

/-! ### The low two bits (R101) -/

/-- The low two bits of a word are those of its opcode. -/
theorem opcodeOf_low (w : InstrWord) : (opcodeOf w).extractLsb' 0 2 = w.extractLsb' 0 2 := by
  rw [opcodeOf, BitVec.extractLsb'_extractLsb'_of_le (by decide)]

/-- A word whose low two bits are not `11` has none of the opcodes that end in them. -/
theorem opcodeOf_ne_of_low {w : InstrWord} (h : w.extractLsb' 0 2 ≠ 0b11#2) {op : BitVec 7}
    (hop : op.extractLsb' 0 2 = 0b11#2) : opcodeOf w ≠ op := by
  rintro rfl
  exact h (opcodeOf_low w ▸ hop)

/-- Settles O17: of the four opcodes only 0x36 does not end in `11`. -/
theorem lowBitsSelectNoLength : Obligations.LowBitsSelectNoLength := by
  intro m w hlow
  split_ifs with h
  · exact decode_instr.mpr (.inr (.inr (.inr ⟨selectsStub_iff.mpr h, rfl⟩)))
  · have hAddi : opcodeOf w ≠ 0x13#7 := opcodeOf_ne_of_low hlow rfl
    have hAdd : opcodeOf w ≠ 0x33#7 := opcodeOf_ne_of_low hlow rfl
    have h37 : opcodeOf w ≠ 0x37#7 := opcodeOf_ne_of_low hlow rfl
    exact decode_unknown.mpr
      ⟨eq_false_of_ne_true (mt opcodeOf_of_selectsAddi hAddi), eq_false_of_ne_true (mt opcodeOf_of_selectsAdd hAdd),
        eq_false_of_ne_true (mt opcodeOf_of_selectsStub h37), eq_false_of_ne_true (mt selectsStub_iff.mp h)⟩

/-! ### Listed words (95_test_vectors.md L2.2) -/

/-- Settles O21: twelve closed words, run through the decoder. -/
theorem listedWordsDecode : Obligations.ListedWordsDecode := by
  unfold Obligations.ListedWordsDecode
  decide

end Sys2Proof
end

section
/-!
PROOFS. Construction (spec/00_scope.md R9 to R11, 20_memory.md R61), and the invariant it establishes and every move
keeps.
-/

namespace Sys2Proof.Machine

/-! ### What construction refuses and accepts -/

/-- A construction refuses as overflowing exactly where the first check stops. -/
theorem construct_regionOverflows {c : Config} {i : Nat} :
    construct c = .error (.regionOverflows i) ↔ firstBad Region.fits 0 c.regions = some i := by
  unfold construct
  cases firstBad Region.fits 0 c.regions with
  | some j => simp
  | none => cases firstBad Region.wf 0 c.regions <;> simp

/-- The check of a region list stops somewhere exactly if some region fails it. -/
theorem exists_firstBad {ok : Region → Bool} {i : Nat} {rs : List Region} :
    (∃ j, firstBad ok i rs = some j) ↔ ∃ r ∈ rs, ok r = false := by
  rw [← Option.ne_none_iff_exists', Ne, firstBad_eq_none]
  simp

theorem fits_eq_false {r : Region} : r.fits = false ↔ 2 ^ 64 - 1 < r.base.toNat + r.length.toNat := by
  rw [Region.fits, decide_eq_false_iff_not, not_le]

theorem wf_iff {r : Region} :
    r.wf = true ↔ r.base.toNat + r.length.toNat ≤ 2 ^ 64 - 1 ∧ r.ctx.wf r.length = true := by
  rw [Region.wf, Bool.and_eq_true, Region.fits, decide_eq_true_eq]

/-- A construction succeeds exactly if every region is well-formed. -/
theorem exists_construct_ok {c : Config} : (∃ s, construct c = .ok s) ↔ ∀ r ∈ c.regions, r.wf = true :=
  ⟨fun ⟨_, hs⟩ => (construct_ok.mp hs).1, fun h => ⟨_, construct_ok.mpr ⟨h, rfl⟩⟩⟩

/-- Settles O4: the first check is that of R61, and what passes it is refused for its contexts only. -/
theorem constructionRefusesOverflowingRegions : Obligations.ConstructionRefusesOverflowingRegions := by
  intro c
  constructor
  · simp only [construct_regionOverflows, exists_firstBad, fits_eq_false]
  · simp only [exists_construct_ok, wf_iff]

theorem construct_default : construct { settings := resetSettings, regions := [] } = .ok State.reset := rfl

/-- Settles O3: nothing is checked in an empty region list, and `initialState` is then the reset state. -/
theorem resetIsTheDefaultConstruction : Obligations.ResetIsTheDefaultConstruction :=
  ⟨construct_default, rfl, readReg_of_zero rfl, rfl⟩

/-! ### The invariant holds at the start -/

theorem construct_inv {c : Config} {s : State} (h : construct c = .ok s) : s.Inv := by
  obtain ⟨hwf, rfl⟩ := construct_ok.mp h
  exact hwf

theorem reset_inv : State.reset.Inv := construct_inv construct_default

/-- Settles O42: construction accepts well-formed regions only, and reset is a construction. -/
theorem invariantHoldsAfterConstruction : Obligations.InvariantHoldsAfterConstruction :=
  ⟨reset_inv, fun _ _ h => construct_inv h⟩

/-! ### Every move keeps it -/

/-- A step leaves the regions, and the invariant is about nothing else. -/
theorem step_inv {s t : State} (hs : s.Inv) (h : step s = .next t) : t.Inv := by
  obtain ⟨hregions, -⟩ := step_next_frame h
  rw [State.Inv, hregions]
  exact hs

theorem hostMove_inv {m : HostMove} {s t : State} (hs : s.Inv) (h : hostMove m s = some t) : t.Inv := by
  cases m with
  | step =>
    rcases hostMove_step_some h with hnext | rfl
    · exact step_inv hs hnext
    · exact hs
  | setContext k c => exact setContext_wf hs h
  | loadImage k o image =>
    obtain ⟨reg, m, -, -, -, hset⟩ := loadImage_some.mp h
    exact setContext_wf hs hset

theorem memWrite_inv {s t : State} {a v : Word} {n : Nat} (hs : s.Inv) (h : memWrite s a n v = .ok t) : t.Inv := by
  obtain ⟨rs, hstore, rfl⟩ := memWrite_ok.mp h
  exact routerStore_wf hs hstore

/-- Settles O43: a step leaves the regions; a host's context is checked; a store hits covered bytes only. -/
theorem everyMoveKeepsTheInvariant : Obligations.EveryMoveKeepsTheInvariant :=
  ⟨fun _ _ => step_inv, fun _ _ _ => hostMove_inv, fun _ _ _ _ _ => memWrite_inv⟩

/-- Settles O44, by induction on the host's moves from a construction. -/
theorem reachableStatesMeetTheInvariant : Obligations.ReachableStatesMeetTheInvariant := by
  intro s hs
  induction hs with
  | constructed hc => exact construct_inv hc
  | moved _ hm ih => exact hostMove_inv ih hm

end Sys2Proof.Machine
end

section
/-!
PROOFS. The trace never changes execution (spec/45_diagnostics.md R180).
-/

namespace Sys2Proof.Machine

/-! ### States that differ at most in the trace settings -/

/-- A state that differs in the trace settings only is the first one under its own settings. -/
theorem SameButTrace.eq_reconfigure {s s' : State} (h : SameButTrace s s') :
    s' = s.reconfigure s'.settings s.regions := by
  obtain ⟨hx, hpc, hregions, -, -⟩ := h
  rw [State.reconfigure, hx, hpc, hregions]

/-- A fetch reads the regions and `pc` only. -/
theorem SameButTrace.fetch_eq {s s' : State} (h : SameButTrace s s') : fetch s' = fetch s := by
  obtain ⟨-, hpc, hregions, -, -⟩ := h
  rw [fetch, fetch, hpc, hregions]

theorem SameButTrace.decode_eq {s s' : State} (h : SameButTrace s s') (w : InstrWord) :
    decode s'.settings.dispatch w = decode s.settings.dispatch w := by
  obtain ⟨-, -, -, -, hdispatch⟩ := h
  rw [hdispatch]

/-- The same instruction run in both states keeps them alike. -/
theorem SameButTrace.exec {s s' u : State} (h : SameButTrace s s') {i : Instr} (hx : exec i s = .next u) :
    ∃ u', Machine.exec i s' = .next u' ∧ SameButTrace u u' := by
  obtain ⟨-, hregions, hsettings⟩ := exec_frame hx
  have hs' := h.eq_reconfigure
  obtain ⟨-, -, -, hinitialPc, hdispatch⟩ := h
  refine ⟨u.reconfigure s'.settings s.regions, ?_, rfl, rfl, hregions, ?_⟩
  · rw [hs']
    exact exec_reconfigure s'.settings s.regions hx
  · rw [hsettings]
    exact ⟨hinitialPc, hdispatch⟩

/-- So does the step, which decodes the same word in both. -/
theorem SameButTrace.step_next {s s' t : State} (h : SameButTrace s s') (hs : step s = .next t) :
    ∃ t', step s' = .next t' ∧ SameButTrace t t' := by
  obtain ⟨w, i, u, hf, hd, hx, rfl⟩ := Machine.step_next.mp hs
  obtain ⟨u', hx', hx_eq, hpc, hrest⟩ := h.exec hx
  exact ⟨u'.advancePc, Machine.step_next.mpr ⟨w, i, u', h.fetch_eq ▸ hf, h.decode_eq w ▸ hd, hx', rfl⟩,
    hx_eq, congrArg (· + 4) hpc, hrest⟩

theorem SameButTrace.step_fault {s s' : State} {f : Fault} (h : SameButTrace s s') (hs : step s = .fault f) :
    step s' = .fault f := by
  rw [Machine.step_fault] at hs ⊢
  rw [h.fetch_eq]
  simpa only [h.decode_eq] using hs

/-- Settles O45: fetch, decode and instruction see nothing of the flags or the sink. -/
theorem traceNeverChangesExecution : Obligations.TraceNeverChangesExecution := by
  intro s s' h
  obtain ⟨t, hs, hreport⟩ | ⟨f, hs, hreport⟩ := stepReport_cases s
  · obtain ⟨t', hs', hsame⟩ := h.step_next hs
    exact ⟨_, _, hreport, stepReport_of_next hs', rfl, hsame⟩
  · exact ⟨_, _, hreport, stepReport_of_fault (h.step_fault hs), rfl, h⟩

end Sys2Proof.Machine
end

section
/-!
PROOFS. The memory bus router: which region a byte resolves to (spec/20_memory.md R61, R64), and the accesses that fail
(R69, R70).
-/

namespace Sys2Proof

/-! ### What a region covers -/

theorem Region.covers_iff {r : Region} {a : Word} :
    r.covers a = true ↔ r.base.toNat ≤ a.toNat ∧ a.toNat < r.base.toNat + r.length.toNat := by
  rw [Region.covers, decide_eq_true_eq]

theorem Region.covers_of_length_zero {r : Region} (h : r.length = 0) (a : Word) : r.covers a = false := by
  have hlength : r.length.toNat = 0 := by rw [h]; rfl
  rw [Region.covers, decide_eq_false_iff_not, hlength]
  omega

theorem Region.fits_of_wf {r : Region} (h : r.wf = true) : r.fits = true := by
  rw [Region.wf, Bool.and_eq_true] at h
  exact h.1

end Sys2Proof

namespace Sys2Proof.Machine

/-! ### Resolution -/

/-- A byte that no region covers resolves to nothing. -/
theorem resolve_none_of_not_covers {rs : List Region} {a : Word} (h : ∀ r ∈ rs, r.covers a = false)
    (cap : Capability) : resolve rs cap a = none :=
  resolve_eq_none.mpr fun r hr => by rw [Region.serves, h r hr, Bool.false_and]

/-- In a state that meets the invariant the last byte of the address space resolves to nothing. -/
theorem resolve_top {s : State} (hs : s.Inv) (cap : Capability) :
    resolve s.regions cap (BitVec.ofNat 64 (2 ^ 64 - 1)) = none :=
  resolve_none_of_not_covers (fun r hr => Region.not_covers_top (Region.fits_of_wf (hs r hr))) cap

/-- Settles O5: a fitting region ends below the last byte, and an empty one ends where it begins. -/
theorem topByteAndEmptyRegionsAreUnmapped : Obligations.TopByteAndEmptyRegionsAreUnmapped :=
  ⟨fun _ hs cap => resolve_top hs cap, fun _ a h => Region.covers_of_length_zero h a⟩

/-- A region serves a byte if it covers it and has the capability asked for (20_memory.md R64). -/
theorem serves_iff_bounds {r : Region} {cap : Capability} {a : Word} :
    r.serves cap a = true ↔
      r.base.toNat ≤ a.toNat ∧ a.toNat < r.base.toNat + r.length.toNat ∧
        (match cap with
          | .load => r.canLoad = true
          | .store => r.canStore = true) := by
  rw [serves_iff, Region.covers_iff, and_assoc]
  cases cap <;> rfl

/-- Settles O6: the scan answers the first region that serves the byte. -/
theorem resolveIsTheFirstMatch : Obligations.ResolveIsTheFirstMatch := by
  intro rs cap a matching
  have hserves : ∀ r : Region, matching r ↔ r.serves cap a = true := fun r => serves_iff_bounds.symm
  constructor
  · intro h
    simp only [resolve_eq_some, hserves, Bool.not_eq_true]
  · simp only [resolve_eq_none, hserves, Bool.not_eq_true]

/-! ### The accesses that fail -/

/-- The bytes of an access resolve up to its lowest miss, which is what it reports (20_memory.md R70). -/
theorem resolveAll_byteAddrs_error {rs : List Region} {cap : Capability} (kind : AccessKind) {a : Word} {n i : Nat}
    (hi : i < n) (hmiss : resolve rs cap (a + BitVec.ofNat 64 i) = none)
    (hbelow : ∀ j, j < i → resolve rs cap (a + BitVec.ofNat 64 j) ≠ none) :
    resolveAll rs cap kind (byteAddrs a n) = .error (.busMiss kind (a + BitVec.ofNat 64 i)) := by
  refine resolveAll_error.mpr ⟨i, _, ?_, hmiss, rfl, fun j hj b hb => ?_⟩
  · exact List.getElem?_eq_some_iff.mpr ⟨by simpa using hi, byteAddrs_getElem ..⟩
  · obtain ⟨hlt, rfl⟩ := List.getElem?_eq_some_iff.mp hb
    rw [byteAddrs_getElem]
    exact hbelow j hj

/-- Settles O9: the lowest miss ends the resolution, before any capability is called. -/
theorem lowestMissedByteIsReported : Obligations.LowestMissedByteIsReported := by
  intro rs kind a v n i hn hi
  have hwidth := supportedWidth_iff.mpr hn
  exact ⟨fun hmiss hbelow => routerLoad_error.mpr (.inr ⟨hwidth, resolveAll_byteAddrs_error kind hi hmiss hbelow⟩),
    fun hmiss hbelow => routerStore_error.mpr (.inr ⟨hwidth, resolveAll_byteAddrs_error .store hi hmiss hbelow⟩)⟩

/-- Settles O10: the width is checked before anything else. -/
theorem unsupportedWidthIsReported : Obligations.UnsupportedWidthIsReported := by
  intro rs kind a v n h8 h16 h32 h64
  have hwidth : supportedWidth n = false :=
    eq_false_of_ne_true fun h => by simp [supportedWidth_iff, h8, h16, h32, h64] at h
  exact ⟨routerLoad_error.mpr (.inl ⟨hwidth, rfl⟩), routerStore_error.mpr (.inl ⟨hwidth, rfl⟩)⟩

end Sys2Proof.Machine
end

section
/-!
PROOFS. What a load reads and what a store writes (spec/20_memory.md R66, R68, R73, R77), byte by byte.
-/

namespace Sys2Proof.Machine

/-! ### An access whose bytes all resolve -/

/-- An access of a supported width is at most 8 whole bytes. -/
theorem supportedWidth_bytes {n : Nat} (h : supportedWidth n = true) : 8 * (n / 8) = n ∧ n / 8 ≤ 8 := by
  rcases supportedWidth_iff.mp h with rfl | rfl | rfl | rfl <;> decide

theorem resolveAll_byteAddrs_total {rs : List Region} {cap : Capability} (kind : AccessKind) {a : Word} {n : Nat}
    (h : ∀ i, i < n → ∃ hit, resolve rs cap (a + BitVec.ofNat 64 i) = some hit) :
    ∃ hits, resolveAll rs cap kind (byteAddrs a n) = .ok hits := by
  refine resolveAll_total fun b hb => ?_
  obtain ⟨i, hi, rfl⟩ := List.mem_map.mp hb
  exact Option.ne_none_iff_exists'.mpr (h i (List.mem_range.mp hi))

theorem resolveAll_length {rs : List Region} {cap : Capability} {kind : AccessKind} {a : Word} {n : Nat}
    {hits : List (Word × Hit)} (h : resolveAll rs cap kind (byteAddrs a n) = .ok hits) : hits.length = n := by
  simpa using congrArg List.length (resolveAll_ok.mp h).1

/-- Byte `i` of the access stands at place `i`, with what it resolves to. -/
theorem resolveAll_getElem? {rs : List Region} {cap : Capability} {kind : AccessKind} {a : Word} {n i : Nat}
    {hits : List (Word × Hit)} (h : resolveAll rs cap kind (byteAddrs a n) = .ok hits) (hi : i < n) {hit : Hit}
    (hr : resolve rs cap (a + BitVec.ofNat 64 i) = some hit) :
    hits[i]? = some (a + BitVec.ofNat 64 i, hit) := by
  obtain ⟨hmap, hres⟩ := resolveAll_ok.mp h
  have hlen : i < hits.length := by rwa [resolveAll_length h]
  have haddr : hits[i].1 = a + BitVec.ofNat 64 i := by
    have := congrArg (·[i]?) hmap
    simpa [hlen, hi, byteAddrs] using this
  have hhit := hres _ (List.getElem_mem hlen)
  rw [haddr, hr, Option.some.injEq] at hhit
  rw [List.getElem?_eq_getElem hlen, hhit, ← haddr]

/-! ### Loads (R66) -/

/-- A load whose bytes all resolve, byte by byte, with zeros above. -/
theorem routerLoad_of_resolves {rs : List Region} (kind : AccessKind) {a : Word} {n : Nat}
    (hn : supportedWidth n = true)
    (hres : ∀ i, i < n / 8 → ∃ h, resolve rs .load (a + BitVec.ofNat 64 i) = some h) :
    ∃ v, routerLoad rs kind a n = .ok v ∧ v.toNat < 2 ^ n ∧
      ∀ i, i < n / 8 → ∀ h, resolve rs .load (a + BitVec.ofNat 64 i) = some h →
        byteOf v i = h.region.loadAt (a + BitVec.ofNat 64 i) := by
  obtain ⟨hits, hh⟩ := resolveAll_byteAddrs_total kind hres
  obtain ⟨hbits, hbytes⟩ := supportedWidth_bytes hn
  refine ⟨_, routerLoad_ok.mpr ⟨hn, hits, hh, rfl⟩, ?_, fun i hi h hr => ?_⟩
  · simpa [resolveAll_length hh, hbits] using composeLE_lt (hits.map fun p => p.2.region.loadAt p.1)
  · rw [byteOf_composeLE _ i (by omega), List.getD_eq_getElem?_getD, List.getElem?_map, resolveAll_getElem? hh hi hr]
    rfl

/-- Settles O8: the composed value's bytes are what the resolved regions answered. -/
theorem loadComposesResolvedBytes : Obligations.LoadComposesResolvedBytes :=
  fun _ kind _ _ hn hres => routerLoad_of_resolves kind (supportedWidth_iff.mpr hn) hres

/-! ### Stores, as the calls each region gets (R68) -/

/-- The context of region `k` after those of the bytes `is` of a store at `a` that resolve to it, in that order. -/
def storedContext (rs : List Region) (a v : Word) (k : Nat) (r : Region) (is : List Nat) (c : Context) : Context :=
  is.foldl
    (fun c i =>
      if resolve rs .store (a + BitVec.ofNat 64 i) = some ⟨k, r⟩ then
        c.store (a + BitVec.ofNat 64 i - r.base) (byteOf v i)
      else c)
    c

theorem storedContext_cons (rs : List Region) (a v : Word) (k : Nat) (r : Region) (i : Nat) (is : List Nat)
    (c : Context) :
    storedContext rs a v k r (i :: is) c =
      storedContext rs a v k r is
        (if resolve rs .store (a + BitVec.ofNat 64 i) = some ⟨k, r⟩ then
          c.store (a + BitVec.ofNat 64 i - r.base) (byteOf v i)
        else c) := rfl

theorem writesTo_cons (k : Nat) (b : Word) (h : Hit) (x : Byte) (ws : List ((Word × Hit) × Byte)) :
    writesTo k (((b, h), x) :: ws) = if h.index = k then (b, x) :: writesTo k ws else writesTo k ws := by
  by_cases hk : h.index = k <;> simp [writesTo, hk]

/-- A resolved byte belongs to region `k` exactly if its index is `k`. -/
theorem resolve_index_iff {rs : List Region} {k : Nat} {r : Region} (hr : rs[k]? = some r) {cap : Capability}
    {b : Word} {h : Hit} (hres : resolve rs cap b = some h) : resolve rs cap b = some ⟨k, r⟩ ↔ h.index = k := by
  rw [hres, Option.some.injEq]
  constructor
  · rintro rfl
    rfl
  · rintro rfl
    obtain ⟨hget, -⟩ := resolve_eq_some.mp hres
    rw [hr, Option.some.injEq] at hget
    rw [hget]

/-- The writes of a store that land in region `k`, as calls of its store capability. -/
theorem storeInto_writesTo {rs : List Region} {a v : Word} {k : Nat} {r : Region} (hr : rs[k]? = some r)
    {is : List Nat} {hits : List (Word × Hit)} (haddr : hits.map (·.1) = is.map (fun i => a + BitVec.ofNat 64 i))
    (hres : ∀ p ∈ hits, resolve rs .store p.1 = some p.2) (c : Context) :
    storeInto { r with ctx := c } (writesTo k (hits.zip (is.map (byteOf v)))) =
      { r with ctx := storedContext rs a v k r is c } := by
  induction is generalizing hits c with
  | nil =>
    obtain rfl : hits = [] := by simpa using haddr
    rfl
  | cons i is ih =>
    cases hits with
    | nil => simp at haddr
    | cons p hits =>
      obtain ⟨b, h⟩ := p
      simp only [List.map_cons, List.cons.injEq] at haddr
      obtain ⟨rfl, haddr⟩ := haddr
      have hhead := hres _ List.mem_cons_self
      have hrest := fun p hp => hres p (List.mem_cons_of_mem _ hp)
      rw [List.map_cons, List.zip_cons_cons, writesTo_cons, storedContext_cons, ← ih haddr hrest]
      simp only [resolve_index_iff hr hhead]
      split_ifs <;> rfl

/-- A successful store, region by region. -/
theorem routerStore_getElem? {rs rs' : List Region} {a v : Word} {n : Nat} (h : routerStore rs a v n = .ok rs')
    {k : Nat} {r : Region} (hr : rs[k]? = some r) :
    rs'[k]? = some { r with ctx := storedContext rs a v k r (List.range (n / 8)) r.ctx } := by
  obtain ⟨-, hits, hh, rfl⟩ := routerStore_ok.mp h
  obtain ⟨haddr, hres⟩ := resolveAll_ok.mp hh
  rw [storeBytes_getElem?, hr, Option.map_some, bytesLE]
  exact congrArg some (storeInto_writesTo hr haddr hres r.ctx)

/-- Settles O11: the resolved bytes are written in index order, each to the region it resolved to. -/
theorem storeCallsCapabilitiesInByteOrder : Obligations.StoreCallsCapabilitiesInByteOrder := by
  intro rs a v n
  refine ⟨fun hn hres => ?_, fun rs' h => ⟨?_, fun k r hr => routerStore_getElem? h hr⟩⟩
  · obtain ⟨hits, hh⟩ := resolveAll_byteAddrs_total .store hres
    exact ⟨_, routerStore_ok.mpr ⟨supportedWidth_iff.mpr hn, hits, hh, rfl⟩⟩
  · obtain ⟨-, hits, -, rfl⟩ := routerStore_ok.mp h
    exact storeBytes_length ..

/-! ### Stores into memory contexts (R68, R77) -/

/-- Distinct bytes of an access have distinct addresses. -/
theorem byteAddr_inj {a : Word} {i j : Nat} (hi : i < 2 ^ 64) (hj : j < 2 ^ 64)
    (h : a + BitVec.ofNat 64 i = a + BitVec.ofNat 64 j) : i = j := by
  have := congrArg BitVec.toNat (add_left_cancel h)
  rwa [BitVec.toNat_ofNat, BitVec.toNat_ofNat, Nat.mod_eq_of_lt hi, Nat.mod_eq_of_lt hj] at this

/-- The bytes of a memory context after a store: those that resolved to it are written, every other is left. -/
theorem storedContext_bytes (rs : List Region) (a v : Word) (k : Nat) (r : Region) {is : List Nat} {m : Memory}
    (hm : m.wf = true) (hnodup : is.Nodup) (hlt : ∀ i ∈ is, i < 2 ^ 64) :
    ∃ m', storedContext rs a v k r is (.bytes m) = .bytes m' ∧ m'.wf = true ∧
      (∀ i ∈ is, resolve rs .store (a + BitVec.ofNat 64 i) = some ⟨k, r⟩ →
        m'.read (a + BitVec.ofNat 64 i - r.base).toNat = byteOf v i) ∧
      ∀ o, (∀ i ∈ is, resolve rs .store (a + BitVec.ofNat 64 i) = some ⟨k, r⟩ →
        (a + BitVec.ofNat 64 i - r.base).toNat ≠ o) → m'.read o = m.read o := by
  induction is generalizing m with
  | nil => exact ⟨m, rfl, hm, fun _ hi => absurd hi List.not_mem_nil, fun _ _ => rfl⟩
  | cons i is ih =>
    obtain ⟨hnew, hnodup⟩ := List.nodup_cons.mp hnodup
    have hlt' := fun j hj => hlt j (List.mem_cons_of_mem _ hj)
    rw [storedContext_cons]
    split_ifs with hi
    · obtain ⟨m', hctx, hwf, hsame, hother⟩ := ih (Memory.write_wf hm _ (byteOf v i)) hnodup hlt'
      refine ⟨m', hctx, hwf, fun j hj hrj => ?_, fun o ho => ?_⟩
      · rcases List.mem_cons.mp hj with rfl | hj
        · rw [hother _ fun l hl _ he => ?_, Memory.read_write_same hm]
          have haddr := sub_left_injective (BitVec.eq_of_toNat_eq he)
          exact hnew (byteAddr_inj (hlt' l hl) (hlt j List.mem_cons_self) haddr ▸ hl)
        · exact hsame j hj hrj
      · rw [hother o fun l hl => ho l (List.mem_cons_of_mem _ hl),
          Memory.read_write_other m _ (ho i List.mem_cons_self hi).symm]
    · obtain ⟨m', hctx, hwf, hsame, hother⟩ := ih hm hnodup hlt'
      refine ⟨m', hctx, hwf, fun j hj hrj => ?_, fun o ho => ?_⟩
      · rcases List.mem_cons.mp hj with rfl | hj
        · exact absurd hrj hi
        · exact hsame j hj hrj
      · exact hother o fun l hl => ho l (List.mem_cons_of_mem _ hl)

/-- A well-formed region's bytes are in canonical form. -/
theorem memory_wf_of_region {r : Region} {m : Memory} (hr : r.wf = true) (hc : r.ctx = .bytes m) : m.wf = true := by
  simp only [Region.wf, hc, Context.wf, Bool.and_eq_true] at hr
  exact hr.2.1

/-- Settles O12: the store's calls on a memory context, byte by byte. -/
theorem storeWritesExactlyItsBytes : Obligations.StoreWritesExactlyItsBytes := by
  intro rs rs' a v n hwf hstore k r m hr hc
  obtain ⟨-, hsize⟩ := supportedWidth_bytes (routerStore_ok.mp hstore).1
  obtain ⟨m', hctx, hwf', hsame, hother⟩ := storedContext_bytes rs a v k r (is := List.range (n / 8))
    (memory_wf_of_region (hwf r (List.mem_of_getElem? hr)) hc) List.nodup_range
    fun i hi => by have := List.mem_range.mp hi; omega
  simp only [List.mem_range] at hsame hother
  exact ⟨_, m', routerStore_getElem? hstore hr, by rw [← hctx, ← hc], hwf', hsame, hother⟩

/-! ### A load inside a store (R73, R77) -/

theorem mem_writesTo {k : Nat} {ws : List ((Word × Hit) × Byte)} {b : Word} {x : Byte} :
    (b, x) ∈ writesTo k ws ↔ ∃ h : Hit, ((b, h), x) ∈ ws ∧ h.index = k := by
  simp [writesTo]

/-- A store writes no address twice in region `k`. -/
theorem writesTo_nodup (k : Nat) {hits : List (Word × Hit)} {bs : List Byte} (hlen : hits.length ≤ bs.length)
    (h : (hits.map (·.1)).Nodup) : ((writesTo k (hits.zip bs)).map (·.1)).Nodup := by
  have hzip : (hits.zip bs).map (fun w => w.1.1) = hits.map (·.1) := by
    rw [← List.map_fst_zip hlen, List.map_map, List.map_fst_zip hlen]
    rfl
  rw [← hzip] at h
  rw [writesTo, List.map_map]
  exact h.sublist (List.filter_sublist.map _)

/-- After a store, a byte of it in a memory region that also serves its load reads as the byte stored. -/
theorem loadAt_after_store {rs : List Region} {a v : Word} {n i : Nat} {hits : List (Word × Hit)} {h : Hit}
    (hwf : ∀ r ∈ rs, r.wf = true) (hh : resolveAll rs .store .store (byteAddrs a n) = .ok hits) (hn : n ≤ 2 ^ 64)
    (hi : i < n) (hmem : h.region.IsMemory) (hr : resolve rs .store (a + BitVec.ofNat 64 i) = some h) :
    (storeInto h.region (writesTo h.index (hits.zip (bytesLE v n)))).loadAt (a + BitVec.ofNat 64 i) = byteOf v i := by
  obtain ⟨haddr, hres⟩ := resolveAll_ok.mp hh
  refine storeInto_loadAt_same hmem (hwf _ (resolve_mem hr)) (fun w hw => ?_) ?_ ?_
  · obtain ⟨hit, hw, hidx⟩ := mem_writesTo.mp hw
    have hhit := hres _ (List.of_mem_zip hw).1
    have := (resolve_index_iff (resolve_eq_some.mp hr).1 hhit).mpr hidx
    exact (serves_iff.mp (resolve_serves this)).1
  · exact writesTo_nodup _ (by simp [resolveAll_length hh]) (haddr ▸ byteAddrs_nodup a hn)
  · refine mem_writesTo.mpr ⟨h, List.mem_of_getElem? (i := i) ?_, rfl⟩
    rw [List.getElem?_zip_eq_some]
    exact ⟨resolveAll_getElem? hh hi hr, by simp [bytesLE, hi]⟩

/-- So the byte's load, which resolves as before the store, gives the stored byte. -/
theorem resolve_load_after_store {rs : List Region} {a v : Word} {n i : Nat} {hits : List (Word × Hit)} {h : Hit}
    (hwf : ∀ r ∈ rs, r.wf = true) (hh : resolveAll rs .store .store (byteAddrs a n) = .ok hits) (hn : n ≤ 2 ^ 64)
    (hi : i < n) (hmem : h.region.IsMemory) (hrs : resolve rs .store (a + BitVec.ofNat 64 i) = some h)
    (hrl : resolve rs .load (a + BitVec.ofNat 64 i) = some h) :
    ∃ h', resolve (storeBytes rs (hits.zip (bytesLE v n))) .load (a + BitVec.ofNat 64 i) = some h' ∧
      h'.region.loadAt (a + BitVec.ofNat 64 i) = byteOf v i :=
  ⟨_, by rw [resolve_storeBytes, hrl, Option.map_some], loadAt_after_store hwf hh hn hi hmem hrs⟩

/-- Two values below `2 ^ n` with the same bytes are equal. -/
theorem eq_of_byteOf {u v : Word} {n : Nat} (hn : n % 8 = 0) (hu : u.toNat < 2 ^ n) (hv : v.toNat < 2 ^ n)
    (h : ∀ i, i < n / 8 → byteOf u i = byteOf v i) : u = v := by
  refine BitVec.eq_of_getLsbD_eq fun j _ => ?_
  by_cases hj : j < n
  · have hbyte := congrArg (·.getLsbD (j % 8)) (h (j / 8) (by omega))
    simpa only [byteOf_getLsbD _ _ _ (Nat.mod_lt j (by decide : 8 > 0)), Nat.div_add_mod] using hbyte
  · have hpow : 2 ^ n ≤ 2 ^ j := Nat.pow_le_pow_right (by decide) (Nat.le_of_not_lt hj)
    rw [BitVec.getLsbD, BitVec.getLsbD, Nat.testBit_lt_two_pow (by omega), Nat.testBit_lt_two_pow (by omega)]

/-- The bytes of a slice of a value are the value's. -/
theorem byteOf_slice (v : Word) {j m i : Nat} (hm : 8 * i + 8 ≤ m) :
    byteOf (((v >>> (8 * j)).setWidth m).setWidth 64) i = byteOf v (j + i) := by
  refine BitVec.eq_of_getLsbD_eq fun l hl => ?_
  rw [byteOf_getLsbD _ _ _ hl, byteOf_getLsbD _ _ _ hl]
  simp only [BitVec.getLsbD_setWidth, BitVec.getLsbD_ushiftRight]
  rw [show 8 * j + (8 * i + l) = 8 * (j + i) + l by ring, decide_eq_true (show 8 * i + l < m by omega), Bool.true_and,
    Bool.and_eq_right_iff_imp, decide_eq_true_eq]
  intro hbit
  have := BitVec.lt_of_getLsbD hbit
  omega

/-- Settles O13: the load's bytes resolve as before the store, to regions that now hold the value's bytes there. -/
theorem narrowLoadSeesBytesOfWiderStore : Obligations.NarrowLoadSeesBytesOfWiderStore := by
  intro rs rs' kind a v n j m hwf hstore hregions hm hjm
  obtain ⟨hn, hits, hh, rfl⟩ := routerStore_ok.mp hstore
  obtain ⟨-, hnbytes⟩ := supportedWidth_bytes hn
  have hwidth := supportedWidth_iff.mpr hm
  obtain ⟨hmbits, hmbytes⟩ := supportedWidth_bytes hwidth
  have hbyte : ∀ i, i < m / 8 → ∃ h, resolve (storeBytes rs (hits.zip (bytesLE v (n / 8)))) .load
      (a + BitVec.ofNat 64 j + BitVec.ofNat 64 i) = some h ∧
        h.region.loadAt (a + BitVec.ofNat 64 j + BitVec.ofNat 64 i) = byteOf v (j + i) := fun i hi => by
    obtain ⟨h, hmem, hrs, hrl⟩ := hregions (j + i) (by omega)
    rw [BitVec.add_assoc, ← BitVec.ofNat_add]
    exact resolve_load_after_store hwf hh (by omega) (by omega) hmem hrs hrl
  obtain ⟨u, hu, hlt, hbytes⟩ := routerLoad_of_resolves kind hwidth fun i hi => (hbyte i hi).imp fun _ => And.left
  rw [hu, Except.ok.injEq]
  refine eq_of_byteOf (by omega) hlt ?_ fun i hi => ?_
  · rw [BitVec.toNat_setWidth_of_le (by omega)]
    exact BitVec.isLt _
  · obtain ⟨h, hr, hload⟩ := hbyte i hi
    rw [hbytes i hi h hr, hload, byteOf_slice v (by omega)]

end Sys2Proof.Machine
end

section
/-!
PROOFS. The instructions' register effects (spec/41_integer_alu.md §1 to §4).
-/

namespace Sys2Proof.Machine

/-! ### What stays unchanged -/

/-- Every byte reads the same where the regions are the same. -/
theorem restUnchanged_of_frame {s t : State} (hregions : t.regions = s.regions) (hsettings : t.settings = s.settings) :
    RestUnchanged s t :=
  ⟨hregions, hsettings, fun a => by rw [readByte, readByte, memRead, memRead, hregions]⟩

theorem exec_restUnchanged {i : Instr} {s t : State} (h : exec i s = .next t) : RestUnchanged s t := by
  obtain ⟨-, hregions, hsettings⟩ := exec_frame h
  exact restUnchanged_of_frame hregions hsettings

theorem exec_pc {i : Instr} {s t : State} (h : exec i s = .next t) : t.pc = s.pc := (exec_frame h).1

theorem exec_settings {i : Instr} {s t : State} (h : exec i s = .next t) : t.settings = s.settings :=
  (exec_frame h).2.2

/-! ### The statements -/

/-- Settles O22: one register write, of the sum. -/
theorem addiCompletesWithItsSum : Obligations.AddiCompletesWithItsSum := by
  intro rd rs1 imm s
  have hx := exec_addi rd rs1 imm s
  rw [← BitVec.add_def]
  exact ⟨_, hx, exec_addi_onlyWrites hx, exec_pc hx, exec_restUnchanged hx⟩

/-- Settles O23: one register write, of the sum of the two values before it. -/
theorem addCompletesWithItsSum : Obligations.AddCompletesWithItsSum := by
  intro rd rs1 rs2 s
  have hx := exec_add rd rs1 rs2 s
  rw [← BitVec.add_def]
  exact ⟨_, hx, exec_add_onlyWrites hx, exec_pc hx, exec_restUnchanged hx⟩

/-- Settles O24: a stub's next state is the state it ran in. -/
theorem stubsCompleteAndChangeNothing : Obligations.StubsCompleteAndChangeNothing := fun g s =>
  ⟨⟨s, exec_stub37 g s, fun _ => rfl, rfl, exec_restUnchanged (exec_stub37 g s)⟩,
    ⟨s, exec_stub36 g s, fun _ => rfl, rfl, exec_restUnchanged (exec_stub36 g s)⟩⟩

/-- A sum modulo 2^64 is that of the operands read as signed numbers (R162). -/
theorem add_eq_ofInt_toInt (a b : Word) : a + b = BitVec.ofInt 64 (a.toInt + b.toInt) := by
  rw [BitVec.ofInt_add, BitVec.ofInt_toInt, BitVec.ofInt_toInt]

/-- Settles O26: the destination holds the sum of words, which both readings of the operands give. -/
theorem additionHasNoSignedness : Obligations.AdditionHasNoSignedness := by
  intro rd rs1 rs2 imm s t u hrd ht hu
  rw [(exec_addi_onlyWrites ht).readReg_rd, (exec_add_onlyWrites hu).readReg_rd, if_neg hrd, if_neg hrd]
  exact ⟨BitVec.toNat_add .., add_eq_ofInt_toInt .., BitVec.toNat_add .., add_eq_ofInt_toInt ..⟩

end Sys2Proof.Machine
end

section
/-!
PROOFS. A step by the word it fetches (spec/40_step_engine.md R130 to R147, 41_integer_alu.md R160 to R171).
-/

namespace Sys2Proof.Machine

/-! ### A step on an instruction -/

theorem step_of_instr {s t : State} {w : InstrWord} {i : Instr} (hf : fetch s = .ok w)
    (hd : decode s.settings.dispatch w = .instr i) (hx : exec i s = .next t) : step s = .next t.advancePc :=
  step_next.mpr ⟨w, i, t, hf, hd, hx, rfl⟩

theorem step_restUnchanged {s t : State} (h : step s = .next t) : RestUnchanged s t := by
  obtain ⟨hregions, hsettings⟩ := step_next_frame h
  exact restUnchanged_of_frame hregions hsettings

/-- A step that continues moves `pc` by 4 (R147). -/
theorem step_next_pc {s t : State} (h : step s = .next t) : t.pc = s.pc + 4 := by
  obtain ⟨rd, v, rfl⟩ := step_next_eq h
  rw [advancePc_pc, writeReg_pc]

/-- What the instruction wrote is what the step wrote. -/
theorem OnlyWrites.advancePc {rd : Reg} {v : Word} {s t : State} (h : OnlyWrites rd v s t) :
    OnlyWrites rd v s t.advancePc := h

/-- Settles O28: the instruction leaves `pc`, and the step then moves it. -/
theorem stepRunsTheDecodedInstruction : Obligations.StepRunsTheDecodedInstruction := by
  intro s t w i hf hd hx
  rw [step_of_instr hf hd hx, State.advancePc, exec_pc hx]
  rfl

/-- Settles O39: a step changes registers and `pc` only. -/
theorem stepsWriteNoMemory : Obligations.StepsWriteNoMemory := fun _ _ => step_restUnchanged

/-! ### ADDI and ADD words -/

/-- A step on an instruction whose only effect is one register write. -/
theorem step_onlyWrites {s u : State} {w : InstrWord} {i : Instr} {rd : Reg} {v : Word} (hf : fetch s = .ok w)
    (hd : decode s.settings.dispatch w = .instr i) (hx : exec i s = .next u) (hw : OnlyWrites rd v s u) :
    ∃ t, step s = .next t ∧ OnlyWrites rd v s t ∧ t.pc = s.pc + 4 ∧ RestUnchanged s t :=
  have hs := step_of_instr hf hd hx
  ⟨_, hs, hw.advancePc, step_next_pc hs, step_restUnchanged hs⟩

/-- Settles O29: the word selects ADDI with the operands of its fields. -/
theorem addiWordsStep : Obligations.AddiWordsStep := by
  intro s w hf hop hfunct
  have hsel : selectsAddi s.settings.dispatch w = true := by simpa [selectsAddi, hop] using hfunct
  have hx := exec_addi (rdOf w) (rs1Of w) (immOf w) s
  exact step_onlyWrites hf (decode_instr.mpr (.inl ⟨hsel, rfl⟩)) hx (exec_addi_onlyWrites hx)

/-- Settles O30: the word selects ADD with the operands of its fields. -/
theorem addWordsStep : Obligations.AddWordsStep := by
  intro s w hf hop hfunct
  have hsel : selectsAdd s.settings.dispatch w = true := by simpa [selectsAdd, hop] using hfunct
  have hx := exec_add (rdOf w) (rs1Of w) (rs2Of w) s
  exact step_onlyWrites hf (decode_instr.mpr (.inr (.inl ⟨hsel, rfl⟩))) hx (exec_add_onlyWrites hx)

/-- A write to `x0` is discarded, so ADDI and ADD with that destination end in the state they ran in. -/
theorem exec_of_rd_zero {i : Instr} (h : (∃ rs1 imm, i = .addi 0 rs1 imm) ∨ ∃ rs1 rs2, i = .add 0 rs1 rs2)
    (s : State) : exec i s = .next s := by
  rcases h with ⟨rs1, imm, rfl⟩ | ⟨rs1, rs2, rfl⟩
  · rw [exec_addi, writeReg_zero]
  · rw [exec_add, writeReg_zero]

/-- The Disasm event of an instruction that ran is sent behind its gate (45_diagnostics.md R184). -/
theorem disasmEvent_mem_stepEvents {s t : State} {w : InstrWord} {i : Instr} {e : TraceEvent} (hf : fetch s = .ok w)
    (hd : decode s.settings.dispatch w = .instr i) (hx : exec i s = .next t)
    (he : disasmEvent s.settings.flags.useAbiNames i = some e) (hsink : s.settings.sinkPresent = true)
    (hgate : gate s.settings.flags e = true) : e ∈ stepEvents s := by
  rw [stepEvents_of_instr hf hd hx, completionEvents, exec_settings hx, he]
  exact List.mem_append_right _ (List.mem_flatMap.mpr ⟨e, by simp, mem_emit.mpr ⟨rfl, hsink, hgate⟩⟩)

/-- Settles O27: the step is that of an instruction which changes nothing, and its Disasm event is sent as ever. -/
theorem destinationZeroIsDiscarded : Obligations.DestinationZeroIsDiscarded := by
  intro s w i hf hd hi
  have hx := exec_of_rd_zero hi s
  have hs := step_of_instr hf hd hx
  refine ⟨_, hs, fun _ => rfl, readReg_zero s, step_next_pc hs, step_restUnchanged hs, fun hsink htrace => ?_⟩
  rcases hi with ⟨rs1, imm, rfl⟩ | ⟨rs1, rs2, rfl⟩
  · exact ⟨_, rfl, disasmEvent_mem_stepEvents hf hd hx rfl hsink htrace⟩
  · exact ⟨_, rfl, disasmEvent_mem_stepEvents hf hd hx rfl hsink htrace⟩

/-- A register that differs is the destination, and that is not `x0` (10_state.md R32, R33). -/
theorem OnlyWrites.eq_rd_of_changed {rd : Reg} {v : Word} {s t : State} (h : OnlyWrites rd v s t) {r : Reg}
    (hr : t.readReg r ≠ s.readReg r) : r ≠ 0 ∧ r = rd := by
  refine ⟨?_, by_contra fun hne => hr (h.readReg_other hne)⟩
  rintro rfl
  rw [readReg_zero, readReg_zero] at hr
  exact hr rfl

/-- Settles O40: by the constructor the word decodes to. -/
theorem stepsWriteOneRegister : Obligations.StepsWriteOneRegister := by
  intro s t h
  obtain ⟨w, i, u, hf, hd, hx, rfl⟩ := step_next.mp h
  refine ⟨w, hf, fun r hr => ?_⟩
  rw [readReg_advancePc] at hr
  obtain ⟨hsel, rfl⟩ | ⟨hsel, rfl⟩ | ⟨hsel, rfl⟩ | ⟨hsel, rfl⟩ := decode_instr.mp hd
  · obtain ⟨hzero, hrd⟩ := OnlyWrites.eq_rd_of_changed (exec_addi_onlyWrites hx) hr
    exact ⟨hzero, hrd, .inl (opcodeOf_of_selectsAddi hsel)⟩
  · obtain ⟨hzero, hrd⟩ := OnlyWrites.eq_rd_of_changed (exec_add_onlyWrites hx) hr
    exact ⟨hzero, hrd, .inr (opcodeOf_of_selectsAdd hsel)⟩
  all_goals
    rw [exec_stub rfl, Host.Outcome.next.injEq] at hx
    exact absurd (hx ▸ rfl) hr

/-! ### Placeholder words (41_integer_alu.md R166, R167) -/

/-- A word with a placeholder opcode is its stub under `STUB_PLACEHOLDERS` and UNKNOWN otherwise. -/
theorem decode_placeholder (m : DispatchMode) {w : InstrWord} (h : opcodeOf w = 0x37#7 ∨ opcodeOf w = 0x36#7) :
    if m.stubPlaceholders then ∃ i, i.isStub = true ∧ decode m w = .instr i else decode m w = .unknown := by
  split_ifs with hm
  · rcases h with h | h
    · exact ⟨_, rfl, decode_instr.mpr (.inr (.inr (.inl ⟨selectsStub_iff.mpr ⟨hm, h⟩, rfl⟩)))⟩
    · exact ⟨_, rfl, decode_instr.mpr (.inr (.inr (.inr ⟨selectsStub_iff.mpr ⟨hm, h⟩, rfl⟩)))⟩
  · have hAddi : opcodeOf w ≠ 0x13#7 := by rcases h with h | h <;> rw [h] <;> decide
    have hAdd : opcodeOf w ≠ 0x33#7 := by rcases h with h | h <;> rw [h] <;> decide
    have hstub : ∀ op, selectsStub m op w = false := fun op => by simp [selectsStub, hm]
    exact decode_unknown.mpr ⟨eq_false_of_ne_true (mt opcodeOf_of_selectsAddi hAddi),
      eq_false_of_ne_true (mt opcodeOf_of_selectsAdd hAdd), hstub _, hstub _⟩

/-- Settles O31: the stub's step moves `pc` alone; without `STUB_PLACEHOLDERS` the word is UNKNOWN. -/
theorem placeholderWordsStep : Obligations.PlaceholderWordsStep := by
  intro s w hf hop
  have hd := decode_placeholder s.settings.dispatch hop
  split_ifs at hd ⊢
  · obtain ⟨i, hi, hd⟩ := hd
    exact step_of_instr hf hd (exec_stub hi s)
  · exact step_of_unknown hf hd

end Sys2Proof.Machine
end

section
/-!
PROOFS. The outcomes of a step, and the two conditions that leave the state (spec/40_step_engine.md R137 to R143,
60_exceptions.md R206 to R208, 10_state.md R38).
-/

namespace Sys2Proof.Machine

/-! ### What a step reports -/

/-- Settles O33: the condition's report is the state as it was. -/
theorem unknownWordLeavesTheState : Obligations.UnknownWordLeavesTheState := fun _ _ hf hd =>
  have hs := step_of_unknown hf hd
  ⟨hs, stepReport_of_fault hs⟩

theorem step_of_fetch_error {s : State} {e : TrapReason} (h : fetch s = .error e) : step s = .fault (.trap e) :=
  step_fault.mpr (.inl ⟨e, h, rfl⟩)

theorem step_trap_iff {s : State} {e : TrapReason} : step s = .fault (.trap e) ↔ fetch s = .error e := by
  rw [step_fault]
  simp

theorem step_unknown_iff {s : State} :
    step s = .fault .unknownInstruction ↔ ∃ w, fetch s = .ok w ∧ decode s.settings.dispatch w = .unknown := by
  rw [step_fault]
  simp

theorem exists_step_next_iff {s : State} :
    (∃ t, step s = .next t) ↔ ∃ w i, fetch s = .ok w ∧ decode s.settings.dispatch w = .instr i := by
  constructor
  · rintro ⟨t, h⟩
    obtain ⟨w, i, -, hf, hd, -⟩ := step_next.mp h
    exact ⟨w, i, hf, hd⟩
  · rintro ⟨w, i, hf, hd⟩
    obtain ⟨rd, v, hx⟩ := exec_eq_writeReg i s
    exact ⟨_, step_of_instr hf hd hx⟩

/-- Settles O35: the step's cases are those of its fetch and its decoding. -/
theorem outcomesOfAStep : Obligations.OutcomesOfAStep := by
  intro s
  refine ⟨exists_step_next_iff, step_unknown_iff, fun _ => step_trap_iff, fun reason h => ?_, step_ne_refused s⟩
  obtain ⟨i, hi, -, he, -⟩ := fetch_error_iff.mp (step_trap_iff.mp h)
  exact ⟨i, hi, he⟩

/-- A report that is no `Continue` leaves the state (60_exceptions.md R206). -/
theorem report_state_of_ne_continued {s : State} {report : StepReport} (h : stepReport s = .ok report)
    (hne : report.outcome ≠ .continued) : report.state = s := by
  obtain ⟨t, -, hreport⟩ | ⟨f, -, hreport⟩ := stepReport_cases s
  · rw [hreport, Except.ok.injEq] at h
    exact absurd (h ▸ rfl) hne
  · rw [hreport, Except.ok.injEq] at h
    rw [← h]

theorem report_state_of_continued {s : State} {report : StepReport} (h : stepReport s = .ok report)
    (hc : report.outcome = .continued) : step s = .next report.state := by
  obtain ⟨t, hs, hreport⟩ | ⟨f, -, hreport⟩ := stepReport_cases s
  · rw [hreport, Except.ok.injEq] at h
    rw [← h, hs]
  · rw [hreport, Except.ok.injEq] at h
    rw [← h] at hc
    exact absurd hc (fault_outcome_ne_continued f)

/-- Settles O36: `Continue` is a step's next state, any other outcome a condition's. -/
theorem pcMovesOnContinueOnly : Obligations.PcMovesOnContinueOnly := fun _ _ h =>
  ⟨fun hc => step_next_pc (report_state_of_continued h hc), report_state_of_ne_continued h⟩

/-! ### A fetch that misses -/

theorem resolve_load_none_iff {rs : List Region} {a : Word} :
    resolve rs .load a = none ↔ ∀ r ∈ rs, ¬ (r.covers a = true ∧ r.canLoad = true) := by
  rw [resolve_eq_none]
  exact forall₂_congr fun r _ => by rw [← Bool.not_eq_true, serves_iff]; rfl

/-- Settles O34: the lowest byte without a load region is the one the fetch reports. -/
theorem fetchMissLeavesTheState : Obligations.FetchMissLeavesTheState := by
  intro s i hi hmiss hbelow reason
  have hf : fetch s = .error reason := by
    refine fetch_error_iff.mpr ⟨i, hi, resolve_load_none_iff.mpr hmiss, rfl, fun j hj hnone => ?_⟩
    obtain ⟨r, hr, hserved⟩ := hbelow j hj
    exact resolve_load_none_iff.mp hnone r hr hserved
  have hs := step_of_fetch_error hf
  refine ⟨hs, ?_⟩
  rw [stepReport_of_fault hs, stepEvents_of_error hf]
  rfl

/-- After a successful fetch each of the four bytes resolved. -/
theorem resolve_of_fetch_ok {s : State} {w : InstrWord} (h : fetch s = .ok w) {i : Nat} (hi : i < 4) :
    ∃ hit, resolve s.regions .load (s.pc + BitVec.ofNat 64 i) = some hit := by
  obtain ⟨v, hload, -⟩ := fetch_ok.mp h
  obtain ⟨-, hits, hh, -⟩ := routerLoad_ok.mp hload
  refine Option.ne_none_iff_exists'.mp fun hnone => ?_
  have hmem : s.pc + BitVec.ofNat 64 i ∈ hits.map (·.1) := by
    rw [(resolveAll_ok.mp hh).1]
    exact List.mem_map.mpr ⟨i, List.mem_range.mpr hi, rfl⟩
  obtain ⟨p, hp, haddr⟩ := List.mem_map.mp hmem
  rw [← haddr, (resolveAll_ok.mp hh).2 p hp] at hnone
  exact absurd hnone (by simp)

/-- A fetch of the last byte of the address space misses (10_state.md R38). -/
theorem fetch_error_of_top {s : State} (hs : s.Inv) (hpc : 2 ^ 64 - 4 ≤ s.pc.toNat) :
    ∃ a, fetch s = .error (.busMiss .fetch a) := by
  cases hf : fetch s with
  | error e =>
    obtain ⟨i, -, -, rfl, -⟩ := fetch_error_iff.mp hf
    exact ⟨_, rfl⟩
  | ok w =>
    have hlt := s.pc.isLt
    have htop : s.pc + BitVec.ofNat 64 (2 ^ 64 - 1 - s.pc.toNat) = BitVec.ofNat 64 (2 ^ 64 - 1) := by
      refine BitVec.eq_of_toNat_eq ?_
      rw [BitVec.toNat_add, BitVec.toNat_ofNat, BitVec.toNat_ofNat]
      omega
    obtain ⟨hit, hr⟩ := resolve_of_fetch_ok hf (i := 2 ^ 64 - 1 - s.pc.toNat) (by omega)
    rw [htop, resolve_top hs] at hr
    exact absurd hr (by simp)

/-- Settles O38: a fetch near the top would need the byte at `2^64 - 1`. -/
theorem pcNeverWraps : Obligations.PcNeverWraps := by
  refine fun s hs => ⟨fun t h => ?_, fun hpc => (fetch_error_of_top hs hpc).imp fun _ => step_of_fetch_error⟩
  have hpc : s.pc.toNat < 2 ^ 64 - 4 := by
    by_contra hge
    obtain ⟨a, hf⟩ := fetch_error_of_top hs (Nat.le_of_not_lt hge)
    rw [step_of_fetch_error hf] at h
    exact absurd h (by simp)
  rw [step_next_pc h, BitVec.toNat_add, show (4 : Word).toNat = 4 from rfl, Nat.mod_eq_of_lt (by omega)]

end Sys2Proof.Machine
end

section
/-!
PROOFS. The trace events of a step, their gates and names (spec/45_diagnostics.md R181 to R190, 10_state.md R34) and the
numbers of the outcomes (60_exceptions.md R201).
-/

namespace Sys2Proof.Machine

/-! ### Gates (R181, R182) -/

/-- The event passes to the sink: the sink is there and the event's gate holds (R181). -/
def passes (st : Settings) (e : TraceEvent) : Bool := st.sinkPresent && gate st.flags e

theorem emit_eq_filter (st : Settings) (e : TraceEvent) : emit st e = [e].filter (passes st) := by
  rw [emit, List.filter_singleton, passes, Bool.cond_eq_ite]

/-- Emitting a list of events keeps those that pass, in order. -/
theorem flatMap_emit (st : Settings) (es : List TraceEvent) : es.flatMap (emit st) = es.filter (passes st) := by
  induction es with
  | nil => rfl
  | cons e es ih => rw [List.flatMap_cons, ih, emit_eq_filter, ← List.filter_append, List.singleton_append]

/-! ### The events of each kind of step, as one filtered list (R183 to R187) -/

theorem stepEvents_instr_eq_filter {s t : State} {w : InstrWord} {i : Instr} (hf : fetch s = .ok w)
    (hd : decode s.settings.dispatch w = .instr i) (hx : exec i s = .next t) :
    stepEvents s =
      (opcodeEvent s w :: ((disasmEvent s.settings.flags.useAbiNames i).toList ++ [regDumpEvent t])).filter
        (passes s.settings) := by
  rw [stepEvents_of_instr hf hd hx, completionEvents, exec_settings hx, flatMap_emit, emit_eq_filter,
    ← List.filter_append, List.singleton_append]

theorem stepEvents_unknown_eq_filter {s : State} {w : InstrWord} (hf : fetch s = .ok w)
    (hd : decode s.settings.dispatch w = .unknown) :
    stepEvents s = [opcodeEvent s w, .error (.unknown s.pc w)].filter (passes s.settings) := by
  rw [stepEvents_of_unknown hf hd, emit_eq_filter, emit_eq_filter, ← List.filter_append, List.singleton_append]

theorem stepEvents_error_eq_filter {s : State} {e : TrapReason} (hf : fetch s = .error e) :
    stepEvents s = [.error (.fetchFault s.pc e)].filter (passes s.settings) := by
  rw [stepEvents_of_error hf, emit_eq_filter]

/-- Every event of a step passed its gate. -/
theorem passes_of_mem_stepEvents {s : State} {e : TraceEvent} (h : e ∈ stepEvents s) : passes s.settings e = true := by
  cases hf : fetch s with
  | error reason =>
    rw [stepEvents_error_eq_filter hf] at h
    exact (List.mem_filter.mp h).2
  | ok w =>
    cases hd : decode s.settings.dispatch w with
    | unknown =>
      rw [stepEvents_unknown_eq_filter hf hd] at h
      exact (List.mem_filter.mp h).2
    | instr i =>
      obtain ⟨rd, v, hx⟩ := exec_eq_writeReg i s
      rw [stepEvents_instr_eq_filter hf hd hx] at h
      exact (List.mem_filter.mp h).2

/-- A step whose every gate is shut emits nothing. -/
theorem stepEvents_eq_nil {s : State} (h : ∀ e, passes s.settings e = false) : stepEvents s = [] :=
  List.eq_nil_iff_forall_not_mem.mpr fun e he => by simpa [h e] using passes_of_mem_stepEvents he

/-! ### The statements -/

/-- Settles O46: the gates by category; `emit` sends what passes, and a step sends nothing else. -/
theorem eventsPassTheirGates : Obligations.EventsPassTheirGates := by
  unfold Obligations.EventsPassTheirGates
  intro open_
  have hgate : ∀ (f : DiagnosticFlags) (e : TraceEvent), gate f e = true ↔ open_ f e := fun f e => by
    cases e <;> simp [gate, open_]
  have hpasses : ∀ (st : Settings) (e : TraceEvent),
      passes st e = true ↔ st.sinkPresent = true ∧ open_ st.flags e := fun st e => by
    rw [passes, Bool.and_eq_true, hgate]
  refine ⟨hgate, fun st e => ⟨fun h => ?_, fun h => ?_⟩, fun s e he => ?_, fun s hsink => ?_,
    fun s verbose useAbiNames hflags => ?_⟩
  · exact if_pos ((hpasses st e).mpr h)
  · exact if_neg (mt (hpasses st e).mp h)
  · exact (hpasses _ e).mp (passes_of_mem_stepEvents he)
  · exact stepEvents_eq_nil fun e => by rw [passes, hsink, Bool.false_and]
  · exact stepEvents_eq_nil fun e => by rw [passes, hflags]; cases e <;> simp [gate]

/-- Settles O47: the contents are those of the model's events, in the settings the instruction left alone. -/
theorem eventsOfAContinuedStep : Obligations.EventsOfAContinuedStep := by
  intro s t w i hf hd hs name disasm dump
  obtain ⟨rd, v, hx⟩ := exec_eq_writeReg i s
  rw [step_of_instr hf hd hx, Host.Outcome.next.injEq] at hs
  subst hs
  have hdump : regDumpEvent (s.writeReg rd v) = .regDump dump := by
    rw [regDumpEvent, writeReg_settings]
    rfl
  have hdisasm : (disasmEvent s.settings.flags.useAbiNames i).toList = disasm := by cases i <;> rfl
  rw [stepEvents_instr_eq_filter hf hd hx, hdisasm, hdump]
  rfl

/-- Settles O48: the filtered lists of the two conditions. -/
theorem eventsOfAReportedCondition : Obligations.EventsOfAReportedCondition :=
  ⟨fun _ _ hf hd => stepEvents_unknown_eq_filter hf hd, fun _ _ hf => stepEvents_error_eq_filter hf⟩

/-! ### Names and numbers -/

/-- The names under one setting are 32 different ones. -/
theorem regName_nodup (abi : Bool) : ((List.finRange 32).map (regName abi)).Nodup := by
  cases abi <;> decide

/-- Settles O49: the tables, read off; a table without duplicates names each register once. -/
theorem registerNames : Obligations.RegisterNames :=
  ⟨fun _ => rfl, by decide, fun abi r q h =>
    List.inj_on_of_nodup_map (regName_nodup abi) (List.mem_finRange r) (List.mem_finRange q) h⟩

/-- Settles O50: the numbers by constructor. -/
theorem outcomeNumbers : Obligations.OutcomeNumbers :=
  ⟨rfl, rfl, fun kind _ => ⟨rfl, by cases kind <;> rfl⟩, fun _ => ⟨rfl, rfl⟩⟩

end Sys2Proof.Machine
end

section
/-!
PROOFS. The host's run loop (spec/40_step_engine.md R143, R149 to R151) and the assembler (30_encoding.md R117, R118).
-/

namespace Sys2Proof.Machine

/-! ### One turn of the loop -/

/-- Every step has a report, so a run is never refused. -/
theorem exists_stepReport (s : State) : ∃ report, stepReport s = .ok report := by
  obtain ⟨t, -, h⟩ | ⟨f, -, h⟩ := stepReport_cases s
  · exact ⟨_, h⟩
  · exact ⟨_, h⟩

theorem runHost_stop {policy : HostPolicy} {run : HostRun} (h : policy run.outcomes = false) (fuel : Nat) :
    runHost policy fuel run = .ok run := by
  cases fuel with
  | zero => rfl
  | succ fuel => rw [runHost, h]; rfl

theorem runHost_step {policy : HostPolicy} {run : HostRun} {report : StepReport} (h : policy run.outcomes = true)
    (hr : stepReport run.state = .ok report) (fuel : Nat) :
    runHost policy (fuel + 1) run = runHost policy fuel (run.extend report) := by
  rw [runHost, if_pos h, hr]

@[simp] theorem extend_outcomes (run : HostRun) (report : StepReport) :
    (run.extend report).outcomes = report.outcome :: run.outcomes := rfl
theorem extend_length (run : HostRun) (report : StepReport) :
    (run.extend report).outcomes.length = run.outcomes.length + 1 := rfl
@[simp] theorem extend_state (run : HostRun) (report : StepReport) : (run.extend report).state = report.state := rfl
@[simp] theorem extend_events (run : HostRun) (report : StepReport) :
    (run.extend report).events = run.events ++ report.events := rfl
@[simp] theorem start_outcomes (s : State) : (HostRun.start s).outcomes = [] := rfl
@[simp] theorem start_state (s : State) : (HostRun.start s).state = s := rfl
@[simp] theorem start_events (s : State) : (HostRun.start s).events = [] := rfl

/-! ### A run of a fixed number of steps -/

theorem fixedStepCount_of_lt {n : Nat} {outcomes : List StepOutcome} (h : outcomes.length < n) :
    fixedStepCount n outcomes = true := decide_eq_true h

theorem fixedStepCount_of_eq {n : Nat} {outcomes : List StepOutcome} (h : outcomes.length = n) :
    fixedStepCount n outcomes = false := decide_eq_false (by omega)

/-- A run under the fixed-count policy goes on until it has its steps. -/
theorem runHost_fixedStepCount {n fuel : Nat} {run : HostRun} (hle : run.outcomes.length ≤ n)
    (hfuel : n ≤ run.outcomes.length + fuel) :
    ∃ run', runHost (fixedStepCount n) fuel run = .ok run' ∧ run'.outcomes.length = n := by
  induction fuel generalizing run with
  | zero => exact ⟨run, rfl, by omega⟩
  | succ fuel ih =>
    rcases Nat.lt_or_eq_of_le hle with hlt | heq
    · obtain ⟨report, hr⟩ := exists_stepReport run.state
      rw [runHost_step (fixedStepCount_of_lt hlt) hr]
      exact ih (by rwa [extend_length]) (by rw [extend_length]; omega)
    · exact ⟨run, runHost_stop (fixedStepCount_of_eq heq) _, heq⟩

/-- Settles O55, from the empty run. -/
theorem fixedCountRunTakesItsSteps : Obligations.FixedCountRunTakesItsSteps := fun _ n fuel h =>
  runHost_fixedStepCount (Nat.zero_le n) (by simpa using h)

/-! ### A condition that repeats (R143) -/

/-- While the report leaves the state, each further step gives it once more. -/
theorem runHost_repeat {s : State} {report : StepReport} (hr : stepReport s = .ok report) (hstate : report.state = s)
    {n m : Nat} {run : HostRun} (hrun : run.state = s) (hn : run.outcomes.length + m = n) :
    ∃ run', runHost (fixedStepCount n) m run = .ok run' ∧ run'.state = s ∧
      run'.outcomes = List.replicate m report.outcome ++ run.outcomes ∧
      run'.events = run.events ++ (List.replicate m report.events).flatten := by
  induction m generalizing run with
  | zero => exact ⟨run, rfl, hrun, rfl, by simp⟩
  | succ m ih =>
    rw [runHost_step (fixedStepCount_of_lt (by omega)) (hrun ▸ hr)]
    obtain ⟨run', hrun', hs, hout, hev⟩ := ih (run := run.extend report) hstate (by rw [extend_length]; omega)
    refine ⟨run', hrun', hs, ?_, ?_⟩
    · rw [hout, extend_outcomes, List.replicate_succ', List.append_assoc, List.singleton_append]
    · rw [hev, extend_events, List.replicate_succ, List.flatten_cons, List.append_assoc]

/-- Settles O37: a condition leaves the state, so the next step is the same step. -/
theorem conditionRepeatsUntilTheHostActs : Obligations.ConditionRepeatsUntilTheHostActs := by
  intro s report n hr hne
  simpa using runHost_repeat hr (report_state_of_ne_continued hr hne) (start_state s) (Nat.zero_add n)

/-! ### A run that halts on a condition -/

/-- The policy goes on exactly while every outcome so far is `Continue`. -/
theorem haltOnNonContinue_of_continued {outcomes : List StepOutcome} (h : ∀ o ∈ outcomes, o = .continued) :
    haltOnNonContinue outcomes = true := by
  cases outcomes with
  | nil => rfl
  | cons o rest => rw [haltOnNonContinue, h o List.mem_cons_self]; rfl

theorem haltOnNonContinue_of_ne {o : StepOutcome} (h : o ≠ .continued) (rest : List StepOutcome) :
    haltOnNonContinue (o :: rest) = false := beq_eq_false_iff_ne.mpr h

/-- A run whose outcomes so far are all `Continue` goes on to the first that is not, or to the end of its fuel. -/
theorem runHost_haltOnNonContinue (fuel : Nat) {run : HostRun} (hc : ∀ o ∈ run.outcomes, o = .continued) :
    ∃ run', runHost haltOnNonContinue fuel run = .ok run' ∧
      run'.outcomes.length ≤ run.outcomes.length + fuel ∧ (∀ o ∈ run'.outcomes.tail, o = .continued) ∧
      (run'.outcomes.length < run.outcomes.length + fuel →
        ∃ o rest, run'.outcomes = o :: rest ∧ o ≠ .continued) := by
  induction fuel generalizing run with
  | zero => exact ⟨run, rfl, le_rfl, fun o ho => hc o (List.mem_of_mem_tail ho), fun h => absurd h (lt_irrefl _)⟩
  | succ fuel ih =>
    obtain ⟨report, hr⟩ := exists_stepReport run.state
    rw [runHost_step (haltOnNonContinue_of_continued hc) hr]
    by_cases ho : report.outcome = .continued
    · have hlen : (run.extend report).outcomes.length + fuel = run.outcomes.length + (fuel + 1) := by
        rw [extend_length]
        omega
      rw [← hlen]
      exact ih fun o hmem => (List.mem_cons.mp hmem).elim (fun h => h.trans ho) (hc o)
    · exact ⟨_, runHost_stop (haltOnNonContinue_of_ne ho _) fuel, by rw [extend_length]; omega, hc,
        fun _ => ⟨_, _, rfl, ho⟩⟩

/-- Settles O54, from the empty run. -/
theorem haltingRunEndsAtTheFirstCondition : Obligations.HaltingRunEndsAtTheFirstCondition := fun s fuel => by
  simpa using runHost_haltOnNonContinue fuel (run := HostRun.start s) (by simp)

/-! ### The assembler -/

theorem immFits_ofInt {imm : Int} (h : -2048 ≤ imm ∧ imm ≤ 2047) : immFits (BitVec.ofInt 64 imm) = true := by
  rw [immFits, decide_eq_true_eq, BitVec.toInt_ofInt, Int.bmod_eq_of_le (by omega) (by omega)]
  exact h

theorem assembleAddi_some {rd rs1 : Reg} {imm : Int} {i : Instr} (h : assembleAddi rd rs1 imm = some i) :
    i.wf = true := by
  unfold assembleAddi at h
  split_ifs at h with hfits
  obtain rfl := Option.some.inj h
  exact immFits_ofInt hfits

theorem assemble_wf {stmt : AsmStmt} {i : Instr} (h : assemble stmt = some i) : i.wf = true := by
  cases stmt with
  | add rd rs1 rs2 =>
    obtain rfl := Option.some.inj h
    rfl
  | addi | nop | mv | li => exact assembleAddi_some h

/-- Settles O56: every statement but `add` goes through the one range check of ADDI. -/
theorem assemblerRefusesWideImmediates : Obligations.AssemblerRefusesWideImmediates :=
  ⟨fun _ _ => assemble_wf, fun _ _ _ => ⟨rfl, rfl⟩, rfl, fun _ _ => rfl, fun _ _ _ => rfl⟩

end Sys2Proof.Machine
end

section
/-!
PROOFS. What the host places in memory between steps is what the next step fetches and runs (spec/20_memory.md R86, R87;
70_reset_and_hazards.md R242, R243).
-/

namespace Sys2Proof

/-! ### A word by its bytes (30_encoding.md R100) -/

/-- Byte `i` of the low word of a value. -/
theorem extract_setWidth_eq_byteOf (v : Word) {i : Nat} (hi : i < 4) :
    (v.setWidth 32).extractLsb' (8 * i) 8 = Machine.byteOf v i :=
  extract_eq fun j hj => by
    rw [Machine.byteOf_getLsbD v i j hj, BitVec.getLsbD_setWidth, decide_eq_true (by omega), Bool.true_and]

/-- Two words with the same four bytes are equal. -/
theorem eq_of_extract {u w : InstrWord} (h : ∀ i, i < 4 → u.extractLsb' (8 * i) 8 = w.extractLsb' (8 * i) 8) :
    u = w := by
  rw [← wordOfBytes_extract u, ← wordOfBytes_extract w]
  congr 1
  exacts [h 0 (by decide), h 1 (by decide), h 2 (by decide), h 3 (by decide)]

@[simp] theorem bytesOfWord_length (w : InstrWord) : (bytesOfWord w).length = 4 := rfl

theorem bytesOfWord_getElem (w : InstrWord) {i : Nat} (hi : i < (bytesOfWord w).length) :
    (bytesOfWord w)[i] = w.extractLsb' (8 * i) 8 := by
  rw [bytesOfWord_length] at hi
  interval_cases i <;> rfl

/-- Placed bytes read as the bytes of the word (R100). -/
theorem Memory.read_writeList_bytesOfWord {m : Memory} (hm : m.wf = true) (o : Nat) (w : InstrWord) {i : Nat}
    (hi : i < 4) : (m.writeList o (bytesOfWord w)).read (o + i) = w.extractLsb' (8 * i) 8 := by
  rw [Memory.read_writeList hm, dif_pos (by rw [bytesOfWord_length]; omega), bytesOfWord_getElem,
    Nat.add_sub_cancel_left]

/-- A region of bytes reads the byte at the address's offset. -/
theorem Region.loadAt_of_bytes {r : Region} {m : Memory} (h : r.ctx = .bytes m) (a : Word) :
    r.loadAt a = m.read (a - r.base).toNat := by
  rw [Region.loadAt, h]
  rfl

end Sys2Proof

namespace Sys2Proof.Machine

/-! ### Fetch, byte by byte (40_step_engine.md R131) -/

/-- A fetch whose four bytes resolve reads each of them where it resolves. -/
theorem fetch_of_resolves {s : State}
    (h : ∀ i, i < 4 → ∃ hit, resolve s.regions .load (s.pc + BitVec.ofNat 64 i) = some hit) :
    ∃ w, fetch s = .ok w ∧ ∀ i, i < 4 → ∀ hit, resolve s.regions .load (s.pc + BitVec.ofNat 64 i) = some hit →
      w.extractLsb' (8 * i) 8 = hit.region.loadAt (s.pc + BitVec.ofNat 64 i) := by
  obtain ⟨v, hload, -, hbytes⟩ := routerLoad_of_resolves .fetch (n := 32) rfl h
  exact ⟨_, fetch_ok.mpr ⟨v, hload, rfl⟩, fun i hi hit hr => by
    rw [extract_setWidth_eq_byteOf v hi, hbytes i hi hit hr]⟩

/-- A fetch gives the word whose bytes the four regions hold. -/
theorem fetch_eq_of_bytes {s : State} {w : InstrWord}
    (h : ∀ i, i < 4 → ∃ hit, resolve s.regions .load (s.pc + BitVec.ofNat 64 i) = some hit ∧
      hit.region.loadAt (s.pc + BitVec.ofNat 64 i) = w.extractLsb' (8 * i) 8) : fetch s = .ok w := by
  obtain ⟨u, hf, hbytes⟩ := fetch_of_resolves fun i hi => (h i hi).imp fun _ => And.left
  rw [hf, Except.ok.injEq]
  refine eq_of_extract fun i hi => ?_
  obtain ⟨hit, hr, hload⟩ := h i hi
  rw [hbytes i hi hit hr, hload]

/-! ### A patch of the host -/

/-- What the byte at an address resolves to after the host replaced the context of region `k`. -/
theorem resolve_setContext {k : Nat} {c : Context} {s t : State} (h : setContext k c s = some t) (cap : Capability)
    (a : Word) : resolve t.regions cap a =
      (resolve s.regions cap a).map
        (fun hit => ⟨hit.index, if k = hit.index then { hit.region with ctx := c } else hit.region⟩) := by
  obtain ⟨reg, -, -, -, rfl⟩ := setContext_some.mp h
  exact resolve_modifyContext ..

theorem setContext_getElem? {k : Nat} {c : Context} {s t : State} (h : setContext k c s = some t) (j : Nat) :
    t.regions[j]? = s.regions[j]?.map (fun reg => if k = j then { reg with ctx := c } else reg) := by
  obtain ⟨reg, -, -, -, rfl⟩ := setContext_some.mp h
  exact modifyContext_getElem? ..

theorem setContext_length {k : Nat} {c : Context} {s t : State} (h : setContext k c s = some t) :
    t.regions.length = s.regions.length := by
  obtain ⟨reg, -, -, -, rfl⟩ := setContext_some.mp h
  exact List.length_modify ..

/-- Settles O51: the patch changes one context, so each byte resolves as before and only region `k` reads anew. -/
theorem hostPatchIsSeenByTheNextFetch : Obligations.HostPatchIsSeenByTheNextFetch := by
  intro s t k m h
  obtain ⟨hx, hpc, hsettings⟩ := setContext_frame h
  obtain ⟨reg, hreg, -⟩ := setContext_some.mp h
  refine ⟨hx, hpc, hsettings, setContext_length h, ⟨reg, hreg, ?_⟩, fun j hj => ?_, fun hres => ?_⟩
  · rw [setContext_getElem? h, hreg, Option.map_some, if_pos rfl]
  · rw [setContext_getElem? h]
    simp [hj.symm]
  · obtain ⟨w, hf, hbytes⟩ := fetch_of_resolves (s := t) fun i hi => by
      obtain ⟨hit, hr⟩ := hres i hi
      exact ⟨_, by rw [hpc, resolve_setContext h, hr, Option.map_some]⟩
    refine ⟨w, hf, fun i hi hit hr => ?_⟩
    rw [hbytes i hi _ (by rw [hpc, resolve_setContext h, hr, Option.map_some]), hpc]
    by_cases hk : hit.index = k
    · rw [if_pos hk, if_pos hk.symm]
      rfl
    · rw [if_neg hk, if_neg (Ne.symm hk)]
      rfl

/-! ### A loaded instruction -/

/-- The offset of a byte further on, where the sum does not wrap. -/
theorem offset_add {r : Region} {a : Word} {i : Nat} (h : (a - r.base).toNat + i < 2 ^ 64) :
    (a + BitVec.ofNat 64 i - r.base).toNat = (a - r.base).toNat + i := by
  rw [show a + BitVec.ofNat 64 i - r.base = a - r.base + BitVec.ofNat 64 i by ring, BitVec.toNat_add,
    BitVec.toNat_ofNat, Nat.mod_eq_of_lt (show i < 2 ^ 64 by omega), Nat.mod_eq_of_lt h]

/-- After the loader placed a word in the region that serves the four bytes at `pc`, the fetch reads the word. -/
theorem fetch_of_loadImage {s t : State} {k : Nat} {r : Region} {w : InstrWord} (hs : s.Inv)
    (hres : ∀ j, j < 4 → resolve s.regions .load (s.pc + BitVec.ofNat 64 j) = some ⟨k, r⟩)
    (h : loadImage k (s.pc - r.base).toNat (bytesOfWord w) s = some t) : fetch t = .ok w := by
  obtain ⟨reg, m, hreg, hctx, hfit, hset⟩ := loadImage_some.mp h
  obtain ⟨hget, -⟩ := resolve_eq_some.mp (hres 0 (by decide))
  obtain rfl : reg = r := Option.some.inj (hreg.symm.trans hget)
  obtain ⟨-, hpc, -⟩ := setContext_frame hset
  have hm : m.wf = true := memory_wf_of_region (hs reg (List.mem_of_getElem? hreg)) hctx
  have hlt := reg.length.isLt
  rw [bytesOfWord_length] at hfit
  refine fetch_eq_of_bytes fun i hi =>
    ⟨⟨k, { reg with ctx := .bytes (m.writeList (s.pc - reg.base).toNat (bytesOfWord w)) }⟩, ?_, ?_⟩
  · rw [hpc, resolve_setContext hset, hres i hi, Option.map_some, if_pos rfl]
  · have hoffset := offset_add (r := reg) (a := s.pc) (i := i) (by omega)
    rw [hpc, Region.loadAt_of_bytes rfl, hoffset, Memory.read_writeList_bytesOfWord hm _ w hi]

/-- Settles O52: the loaded word is fetched, and it decodes to the instruction it encodes. -/
theorem loadedInstructionRuns : Obligations.LoadedInstructionRuns := by
  intro s t u k r i hs hwf hstub hres hload hx
  obtain ⟨reg, m, -, -, -, hset⟩ := loadImage_some.mp hload
  obtain ⟨-, -, hsettings⟩ := setContext_frame hset
  have hd : decode t.settings.dispatch (encode i) = .instr i :=
    decodeInvertsEncode i _ hwf (hsettings ▸ hstub)
  exact stepRunsTheDecodedInstruction t u _ i (fetch_of_loadImage hs hres hload) hd hx

/-! ### `withFetchWord` (log entries 6 and 7) -/

@[simp] theorem wordRegion_base (pc : Word) (w : InstrWord) : (wordRegion pc w).base = pc := rfl
@[simp] theorem wordRegion_length (pc : Word) (w : InstrWord) : (wordRegion pc w).length = 4 := rfl

/-- The word's own region serves its four bytes, where they fit. -/
theorem wordRegion_serves {pc : Word} (w : InstrWord) (hpc : pc.toNat + 4 ≤ 2 ^ 64 - 1) {i : Nat} (hi : i < 4) :
    (wordRegion pc w).serves .load (pc + BitVec.ofNat 64 i) = true := by
  refine serves_iff.mpr ⟨Region.covers_iff.mpr ?_, rfl⟩
  rw [wordRegion_base, wordRegion_length, BitVec.toNat_add, BitVec.toNat_ofNat, show (4 : Word).toNat = 4 from rfl]
  omega

theorem wordRegion_loadAt (pc : Word) (w : InstrWord) {i : Nat} (hi : i < 4) :
    (wordRegion pc w).loadAt (pc + BitVec.ofNat 64 i) = w.extractLsb' (8 * i) 8 := by
  have hoffset : (pc + BitVec.ofNat 64 i - pc).toNat = 0 + i := by
    rw [add_sub_cancel_left, BitVec.toNat_ofNat]
    omega
  rw [Region.loadAt_of_bytes rfl, wordRegion_base, hoffset]
  exact Memory.read_writeList_bytesOfWord rfl 0 w hi

theorem fetch_placeWord {s : State} (w : InstrWord) (hpc : s.pc.toNat + 4 ≤ 2 ^ 64 - 1) :
    fetch (placeWord w s) = .ok w :=
  fetch_eq_of_bytes fun _ hi =>
    ⟨_, resolve_cons_of_serves (wordRegion_serves w hpc hi) s.regions, wordRegion_loadAt s.pc w hi⟩

/-- A table word decodes under the settings that `withFetchWord` leaves, in strict dispatch. -/
theorem decode_settingsFor {st : Settings} {w : InstrWord} {i : Instr} (hlegacy : st.dispatch.legacyOpcodeOnly = false)
    (h : decode tableMode w = .instr i) : decode (settingsFor w st).dispatch w = .instr i := by
  have hstub : ∀ op, opcodeOf w = op → op = 0x37#7 ∨ op = 0x36#7 →
      selectsStub (settingsFor w st).dispatch op w = true := by
    rintro op rfl hop
    exact selectsStub_iff.mpr ⟨by simp [settingsFor, isPlaceholder, hop], rfl⟩
  have hstrict : (settingsFor w st).dispatch.legacyOpcodeOnly = tableMode.legacyOpcodeOnly := hlegacy
  rw [decode_instr] at h ⊢
  rcases h with ⟨hsel, hi⟩ | ⟨hsel, hi⟩ | ⟨hsel, hi⟩ | ⟨hsel, hi⟩
  · exact .inl ⟨by rwa [selectsAddi, hstrict], hi⟩
  · exact .inr (.inl ⟨by rwa [selectsAdd, hstrict], hi⟩)
  · exact .inr (.inr (.inl ⟨hstub _ (opcodeOf_of_selectsStub hsel) (.inl rfl), hi⟩))
  · exact .inr (.inr (.inr ⟨hstub _ (opcodeOf_of_selectsStub hsel) (.inr rfl), hi⟩))

/-- What `decodeTableWord` answers is the decoding of the word under `tableMode`. -/
theorem decode_of_decodeTableWord {nbits n : Nat} {i : Instr} (h : decodeTableWord nbits n = some i) :
    decode tableMode (tableWord nbits n) = .instr i := by
  have hbytes := decodeBytes_bytesOfWord tableMode (tableWord nbits n) []
  rw [List.append_nil] at hbytes
  rw [decodeTableWord, hbytes] at h
  cases hd : decode tableMode (tableWord nbits n) with
  | unknown => simp [hd] at h
  | instr j => simpa [hd] using h

/-- Settles O53: the placed word is fetched, and decodes as under `tableMode`. -/
theorem fetchWordRuns : Obligations.FetchWordRuns := by
  intro s u nbits w i hpc hlegacy htable hx
  exact ⟨stepRunsTheDecodedInstruction _ u _ i (fetch_placeWord _ hpc)
    (decode_settingsFor hlegacy (decode_of_decodeTableWord htable)) hx, rfl⟩

end Sys2Proof.Machine
end
